-- ==== Sys2Proof/Word.lean ====
section
/-! DEFINITION. The widths of the core: a 32-bit word, an 8-bit byte, a 5-bit register index (00_scope.md R7, R11;
10_state.md R23, R34). -/

namespace Sys2Proof

/-- A 32-bit pattern: a register value, a memory word, `pc`, an address (R11). Signedness belongs to the operation that
reads it: `toNat` is the spec's `u(v)`, `toInt` its `s(v)`. -/
abbrev Word := BitVec 32

/-- A byte of memory (R34). -/
abbrev Byte := BitVec 8

/-- A register index, a 5-bit field, so always in 0..31 (R23, R82). -/
abbrev Reg := BitVec 5

end Sys2Proof
end

