-- ==== Sys2Proof/Config.lean ====
section
/-! DEFINITION. What the spec leaves to the implementation (00_scope.md R8) and the fill value of memory (10_state.md R35). -/

namespace Sys2Proof.Config

/-- The memory size a newly created session has until another is chosen. The spec leaves MEM_SIZE open and gives this as
the default of its test vectors (D2). DESIGN CHOICE, unsafe: log entry 1. -/
def defaultMemSize : Nat := 0x00100000

/-- The base a newly created session has before any load. The spec leaves BASE open and gives this as the default of its
test vectors (D3). DESIGN CHOICE, unsafe: log entry 2. -/
def defaultBase : Word := 0x00000000

/-- What a byte that nothing has written reads as (10_state.md R35). -/
def fillByte : Byte := 0x00

/-- The sizes a memory may have: a multiple of 4 with 4 <= MEM_SIZE <= 2^32 (00_scope.md R8, 70_reset_and_hazards.md R272). -/
def legalMemSize (n : Nat) : Bool := decide (n % 4 = 0 ∧ 4 ≤ n ∧ n ≤ 2 ^ 32)

end Sys2Proof.Config
end

