-- ==== Sys2Proof/WellFormed.lean ====
section
/-! DEFINITION. Which instructions an encoding can carry: the immediate lies in the range of its format (30_encoding.md
R90, R92 to R95, R103). Register indices and shift amounts are legal at every value of their width (R82, R91). -/

namespace Sys2Proof

/-- The I and S immediates: -2048 .. 2047 (R90, R92). -/
def imm12InRange (imm : Word) : Bool := decide (-2048 ≤ imm.toInt ∧ imm.toInt ≤ 2047)

/-- The B immediate: even, -4096 .. 4094 (R93). -/
def immBInRange (imm : Word) : Bool := decide (-4096 ≤ imm.toInt ∧ imm.toInt ≤ 4094 ∧ imm.toInt % 2 = 0)

/-- The U immediate: the low 12 bits are 0 (R94). -/
def immUInRange (imm : Word) : Bool := decide (imm.toNat % 4096 = 0)

/-- The J immediate: even, -1048576 .. 1048574 (R95). -/
def immJInRange (imm : Word) : Bool :=
  decide (-1048576 ≤ imm.toInt ∧ imm.toInt ≤ 1048574 ∧ imm.toInt % 2 = 0)

/-- The instruction is one that some word encodes (R103). -/
def Instr.wf (i : Instr) : Bool :=
  match i with
  | .add _ _ _ => true
  | .sub _ _ _ => true
  | .sll _ _ _ => true
  | .xor _ _ _ => true
  | .srl _ _ _ => true
  | .sra _ _ _ => true
  | .or _ _ _ => true
  | .and _ _ _ => true
  | .addi _ _ imm => imm12InRange imm
  | .xori _ _ imm => imm12InRange imm
  | .ori _ _ imm => imm12InRange imm
  | .andi _ _ imm => imm12InRange imm
  | .slli _ _ _ => true
  | .srli _ _ _ => true
  | .srai _ _ _ => true
  | .lw _ _ imm => imm12InRange imm
  | .sw _ _ imm => imm12InRange imm
  | .beq _ _ imm => immBInRange imm
  | .bne _ _ imm => immBInRange imm
  | .blt _ _ imm => immBInRange imm
  | .bge _ _ imm => immBInRange imm
  | .lui _ imm => immUInRange imm
  | .auipc _ imm => immUInRange imm
  | .jal _ imm => immJInRange imm
  | .jalr _ _ imm => imm12InRange imm

end Sys2Proof
end

