-- ==== Sys2Proof/Decode.lean ====
section
/-! DEFINITION. The decoder, total on all 2^32 words (30_encoding.md R97), the encoder written from the same tables
(R83 to R89, R103), and the mask and match table (R99). Field positions are the spec's decision D6 (log entry 11). -/

namespace Sys2Proof

/-! Byte order (20_memory.md R53). -/

/-- The word whose bytes at rising addresses are `b0 b1 b2 b3` (R53). -/
def wordOfBytes (b0 b1 b2 b3 : Byte) : Word := b3 ++ b2 ++ b1 ++ b0

/-- The byte of `w` that stands at offset `k` from the word's address (R53). -/
def wordByte (w : Word) (k : Nat) : Byte := w.extractLsb' (8 * k) 8

/-- The four bytes of `w` at rising addresses (R53, R110). -/
def bytesOfWord (w : Word) : List Byte := [wordByte w 0, wordByte w 1, wordByte w 2, wordByte w 3]

/-! Common fields (R81). -/

def opcodeField (w : Word) : BitVec 7 := w.extractLsb' 0 7
def rdField (w : Word) : Reg := w.extractLsb' 7 5
def funct3Field (w : Word) : BitVec 3 := w.extractLsb' 12 3
def rs1Field (w : Word) : Reg := w.extractLsb' 15 5
def rs2Field (w : Word) : Reg := w.extractLsb' 20 5
def funct7Field (w : Word) : BitVec 7 := w.extractLsb' 25 7

/-! Immediates (R90 to R95). -/

/-- R90. -/
def immI (w : Word) : Word := (w.extractLsb' 20 12).signExtend 32

/-- R91. -/
def shamtField (w : Word) : BitVec 5 := w.extractLsb' 20 5

/-- R92. -/
def immS (w : Word) : Word := (w.extractLsb' 25 7 ++ w.extractLsb' 7 5 : BitVec 12).signExtend 32

/-- R93. -/
def immB (w : Word) : Word :=
  (w.extractLsb' 31 1 ++ w.extractLsb' 7 1 ++ w.extractLsb' 25 6 ++ w.extractLsb' 8 4 ++ 0#1 : BitVec 13).signExtend 32

/-- R94. -/
def immU (w : Word) : Word := w.extractLsb' 12 20 ++ 0#12

/-- R95. -/
def immJ (w : Word) : Word :=
  (w.extractLsb' 31 1 ++ w.extractLsb' 12 8 ++ w.extractLsb' 20 1 ++ w.extractLsb' 21 10 ++ 0#1 : BitVec 21).signExtend 32

/-- The result of decoding: an instruction, or the spec's `Unsupported` (R97). -/
inductive Decoded where
  | instr (i : Instr)
  | unsupported
deriving DecidableEq, Repr

/-- Opcode 0b0110011 (OP): both function fields are matched in full (R97, D7). -/
def decodeOp (w : Word) : Decoded :=
  if funct7Field w = 0b0000000#7 ∧ funct3Field w = 0b000#3 then .instr (.add (rdField w) (rs1Field w) (rs2Field w))
  else if funct7Field w = 0b0100000#7 ∧ funct3Field w = 0b000#3 then .instr (.sub (rdField w) (rs1Field w) (rs2Field w))
  else if funct7Field w = 0b0000000#7 ∧ funct3Field w = 0b001#3 then .instr (.sll (rdField w) (rs1Field w) (rs2Field w))
  else if funct7Field w = 0b0000000#7 ∧ funct3Field w = 0b100#3 then .instr (.xor (rdField w) (rs1Field w) (rs2Field w))
  else if funct7Field w = 0b0000000#7 ∧ funct3Field w = 0b101#3 then .instr (.srl (rdField w) (rs1Field w) (rs2Field w))
  else if funct7Field w = 0b0100000#7 ∧ funct3Field w = 0b101#3 then .instr (.sra (rdField w) (rs1Field w) (rs2Field w))
  else if funct7Field w = 0b0000000#7 ∧ funct3Field w = 0b110#3 then .instr (.or (rdField w) (rs1Field w) (rs2Field w))
  else if funct7Field w = 0b0000000#7 ∧ funct3Field w = 0b111#3 then .instr (.and (rdField w) (rs1Field w) (rs2Field w))
  else .unsupported

/-- Opcode 0b0010011 (OP-IMM): the three shifts match the upper seven bits in full (R97, D7). -/
def decodeOpImm (w : Word) : Decoded :=
  if funct3Field w = 0b000#3 then .instr (.addi (rdField w) (rs1Field w) (immI w))
  else if funct3Field w = 0b100#3 then .instr (.xori (rdField w) (rs1Field w) (immI w))
  else if funct3Field w = 0b110#3 then .instr (.ori (rdField w) (rs1Field w) (immI w))
  else if funct3Field w = 0b111#3 then .instr (.andi (rdField w) (rs1Field w) (immI w))
  else if funct7Field w = 0b0000000#7 ∧ funct3Field w = 0b001#3 then .instr (.slli (rdField w) (rs1Field w) (shamtField w))
  else if funct7Field w = 0b0000000#7 ∧ funct3Field w = 0b101#3 then .instr (.srli (rdField w) (rs1Field w) (shamtField w))
  else if funct7Field w = 0b0100000#7 ∧ funct3Field w = 0b101#3 then .instr (.srai (rdField w) (rs1Field w) (shamtField w))
  else .unsupported

/-- Opcode 0b0000011 (LOAD). -/
def decodeLoad (w : Word) : Decoded :=
  if funct3Field w = 0b010#3 then .instr (.lw (rdField w) (rs1Field w) (immI w)) else .unsupported

/-- Opcode 0b0100011 (STORE). -/
def decodeStore (w : Word) : Decoded :=
  if funct3Field w = 0b010#3 then .instr (.sw (rs1Field w) (rs2Field w) (immS w)) else .unsupported

/-- Opcode 0b1100011 (BRANCH). -/
def decodeBranch (w : Word) : Decoded :=
  if funct3Field w = 0b000#3 then .instr (.beq (rs1Field w) (rs2Field w) (immB w))
  else if funct3Field w = 0b001#3 then .instr (.bne (rs1Field w) (rs2Field w) (immB w))
  else if funct3Field w = 0b100#3 then .instr (.blt (rs1Field w) (rs2Field w) (immB w))
  else if funct3Field w = 0b101#3 then .instr (.bge (rs1Field w) (rs2Field w) (immB w))
  else .unsupported

/-- Opcode 0b1100111 (JALR). -/
def decodeJalr (w : Word) : Decoded :=
  if funct3Field w = 0b000#3 then .instr (.jalr (rdField w) (rs1Field w) (immI w)) else .unsupported

/-- The decode function of R97. Every word outside the 25 instructions is `unsupported` (R98), and nothing else than
the 32 bits of the word is read (R101). -/
def decode (w : Word) : Decoded :=
  if opcodeField w = 0b0110011#7 then decodeOp w
  else if opcodeField w = 0b0010011#7 then decodeOpImm w
  else if opcodeField w = 0b0000011#7 then decodeLoad w
  else if opcodeField w = 0b0100011#7 then decodeStore w
  else if opcodeField w = 0b1100011#7 then decodeBranch w
  else if opcodeField w = 0b1100111#7 then decodeJalr w
  else if opcodeField w = 0b1101111#7 then .instr (.jal (rdField w) (immJ w))
  else if opcodeField w = 0b0110111#7 then .instr (.lui (rdField w) (immU w))
  else if opcodeField w = 0b0010111#7 then .instr (.auipc (rdField w) (immU w))
  else .unsupported

/-- The decoder on any bytes in memory order: the first four are the word (R80, R53); fewer than four hold no
instruction. -/
def decodeBytes (bytes : List Byte) : Decoded :=
  match bytes with
  | b0 :: b1 :: b2 :: b3 :: _ => decode (wordOfBytes b0 b1 b2 b3)
  | _ => .unsupported

/-- The instruction the decoder reads from a word numbered as the opcode table numbers it, laid out as the hardware
stores it. -/
def decodeTableWord (nbits w : Nat) : Option Instr :=
  match decodeBytes (bytesOfWord (BitVec.ofNat 32 (w % 2 ^ nbits))) with
  | .instr i => some i
  | .unsupported => none

/-! Formats (R83 to R89). -/

/-- R83, and R85 with the shift amount in the place of `rs2`. -/
def encodeR (funct7 : BitVec 7) (rs2 rs1 : BitVec 5) (funct3 : BitVec 3) (rd : BitVec 5) (opcode : BitVec 7) : Word :=
  funct7 ++ rs2 ++ rs1 ++ funct3 ++ rd ++ opcode

/-- R84. -/
def encodeI (imm : Word) (rs1 : Reg) (funct3 : BitVec 3) (rd : Reg) (opcode : BitVec 7) : Word :=
  imm.extractLsb' 0 12 ++ rs1 ++ funct3 ++ rd ++ opcode

/-- R86. -/
def encodeS (imm : Word) (rs2 rs1 : Reg) (funct3 : BitVec 3) (opcode : BitVec 7) : Word :=
  imm.extractLsb' 5 7 ++ rs2 ++ rs1 ++ funct3 ++ imm.extractLsb' 0 5 ++ opcode

/-- R87. -/
def encodeB (imm : Word) (rs2 rs1 : Reg) (funct3 : BitVec 3) (opcode : BitVec 7) : Word :=
  imm.extractLsb' 12 1 ++ imm.extractLsb' 5 6 ++ rs2 ++ rs1 ++ funct3 ++ imm.extractLsb' 1 4 ++ imm.extractLsb' 11 1 ++ opcode

/-- R88. -/
def encodeU (imm : Word) (rd : Reg) (opcode : BitVec 7) : Word := imm.extractLsb' 12 20 ++ rd ++ opcode

/-- R89. -/
def encodeJ (imm : Word) (rd : Reg) (opcode : BitVec 7) : Word :=
  imm.extractLsb' 20 1 ++ imm.extractLsb' 1 10 ++ imm.extractLsb' 11 1 ++ imm.extractLsb' 12 8 ++ rd ++ opcode

/-- The word of an instruction (R103): its fields at the positions of R83 to R89 and the fixed bits of R99. -/
def encode (i : Instr) : Word :=
  match i with
  | .add rd rs1 rs2 => encodeR 0b0000000#7 rs2 rs1 0b000#3 rd 0b0110011#7
  | .sub rd rs1 rs2 => encodeR 0b0100000#7 rs2 rs1 0b000#3 rd 0b0110011#7
  | .sll rd rs1 rs2 => encodeR 0b0000000#7 rs2 rs1 0b001#3 rd 0b0110011#7
  | .xor rd rs1 rs2 => encodeR 0b0000000#7 rs2 rs1 0b100#3 rd 0b0110011#7
  | .srl rd rs1 rs2 => encodeR 0b0000000#7 rs2 rs1 0b101#3 rd 0b0110011#7
  | .sra rd rs1 rs2 => encodeR 0b0100000#7 rs2 rs1 0b101#3 rd 0b0110011#7
  | .or rd rs1 rs2 => encodeR 0b0000000#7 rs2 rs1 0b110#3 rd 0b0110011#7
  | .and rd rs1 rs2 => encodeR 0b0000000#7 rs2 rs1 0b111#3 rd 0b0110011#7
  | .addi rd rs1 imm => encodeI imm rs1 0b000#3 rd 0b0010011#7
  | .xori rd rs1 imm => encodeI imm rs1 0b100#3 rd 0b0010011#7
  | .ori rd rs1 imm => encodeI imm rs1 0b110#3 rd 0b0010011#7
  | .andi rd rs1 imm => encodeI imm rs1 0b111#3 rd 0b0010011#7
  | .slli rd rs1 shamt => encodeR 0b0000000#7 shamt rs1 0b001#3 rd 0b0010011#7
  | .srli rd rs1 shamt => encodeR 0b0000000#7 shamt rs1 0b101#3 rd 0b0010011#7
  | .srai rd rs1 shamt => encodeR 0b0100000#7 shamt rs1 0b101#3 rd 0b0010011#7
  | .lw rd rs1 imm => encodeI imm rs1 0b010#3 rd 0b0000011#7
  | .sw rs1 rs2 imm => encodeS imm rs2 rs1 0b010#3 0b0100011#7
  | .beq rs1 rs2 imm => encodeB imm rs2 rs1 0b000#3 0b1100011#7
  | .bne rs1 rs2 imm => encodeB imm rs2 rs1 0b001#3 0b1100011#7
  | .blt rs1 rs2 imm => encodeB imm rs2 rs1 0b100#3 0b1100011#7
  | .bge rs1 rs2 imm => encodeB imm rs2 rs1 0b101#3 0b1100011#7
  | .lui rd imm => encodeU imm rd 0b0110111#7
  | .auipc rd imm => encodeU imm rd 0b0010111#7
  | .jal rd imm => encodeJ imm rd 0b1101111#7
  | .jalr rd rs1 imm => encodeI imm rs1 0b000#3 rd 0b1100111#7

/-! The mask and match table (R99). The decoder does not use it: it is the spec's second description of the same map. -/

/-- The 25 tags (R97, R102). -/
inductive Tag where
  | add | sub | sll | xor | srl | sra | or | and
  | addi | xori | ori | andi | slli | srli | srai
  | lw | sw | beq | bne | blt | bge | lui | auipc | jal | jalr
deriving DecidableEq, Repr

/-- The tag of an instruction (R102). -/
def Instr.tag (i : Instr) : Tag :=
  match i with
  | .add _ _ _ => .add
  | .sub _ _ _ => .sub
  | .sll _ _ _ => .sll
  | .xor _ _ _ => .xor
  | .srl _ _ _ => .srl
  | .sra _ _ _ => .sra
  | .or _ _ _ => .or
  | .and _ _ _ => .and
  | .addi _ _ _ => .addi
  | .xori _ _ _ => .xori
  | .ori _ _ _ => .ori
  | .andi _ _ _ => .andi
  | .slli _ _ _ => .slli
  | .srli _ _ _ => .srli
  | .srai _ _ _ => .srai
  | .lw _ _ _ => .lw
  | .sw _ _ _ => .sw
  | .beq _ _ _ => .beq
  | .bne _ _ _ => .bne
  | .blt _ _ _ => .blt
  | .bge _ _ _ => .bge
  | .lui _ _ => .lui
  | .auipc _ _ => .auipc
  | .jal _ _ => .jal
  | .jalr _ _ _ => .jalr

/-- The bits that select a row of R99. -/
def Tag.mask (t : Tag) : Word :=
  match t with
  | .add | .sub | .sll | .xor | .srl | .sra | .or | .and => 0xFE00707F#32
  | .slli | .srli | .srai => 0xFE00707F#32
  | .addi | .xori | .ori | .andi | .lw | .jalr | .sw | .beq | .bne | .blt | .bge => 0x0000707F#32
  | .lui | .auipc | .jal => 0x0000007F#32

/-- The value those bits must have (the column "match" of R99). -/
def Tag.pattern (t : Tag) : Word :=
  match t with
  | .add => 0x00000033#32
  | .sub => 0x40000033#32
  | .sll => 0x00001033#32
  | .xor => 0x00004033#32
  | .srl => 0x00005033#32
  | .sra => 0x40005033#32
  | .or => 0x00006033#32
  | .and => 0x00007033#32
  | .addi => 0x00000013#32
  | .xori => 0x00004013#32
  | .ori => 0x00006013#32
  | .andi => 0x00007013#32
  | .slli => 0x00001013#32
  | .srli => 0x00005013#32
  | .srai => 0x40005013#32
  | .lw => 0x00002003#32
  | .jalr => 0x00000067#32
  | .sw => 0x00002023#32
  | .beq => 0x00000063#32
  | .bne => 0x00001063#32
  | .blt => 0x00004063#32
  | .bge => 0x00005063#32
  | .lui => 0x00000037#32
  | .auipc => 0x00000017#32
  | .jal => 0x0000006F#32

/-- The word `w` matches the row of `t` (R99). -/
def Tag.selects (t : Tag) (w : Word) : Bool := w &&& t.mask == t.pattern

end Sys2Proof
end

