-- ==== Sys2Proof/Machine/State.lean ====
section
/-! DEFINITION. The whole state of one session (10_state.md R20 to R41) and its value at reset (70_reset_and_hazards.md
R270, R271), as plain data. -/

namespace Sys2Proof.Machine

/-- The two causes of a memory error (60_exceptions.md R242). -/
inductive MemErrorKind where
  | misaligned
  | outOfBounds
deriving DecidableEq, Repr

/-- The two classes of error the core raises, with what they record (R241, R242). -/
inductive MachineError where
  | decodeError (word addr : Word)
  | memoryError (kind : MemErrorKind) (addr : Word)
deriving DecidableEq, Repr

/-- The run status (10_state.md R36). -/
inductive Status where
  | running
  | halted
  | error (e : MachineError)
deriving DecidableEq, Repr

/-- The bytes that differ from what an unlisted address reads as, by rising address. -/
abbrev Memory := List Host.Cell

/-- One session: the registers, `pc`, the memory and the status (10_state.md R41), and the two parameters a session is
created and loaded with (00_scope.md R8). -/
structure State where
  /-- `x0` .. `x31` (R20). Slot 0 stays 0 and `State.reg` reads `x0` as 0 whatever it holds (R21). -/
  x : Vector Word 32
  /-- The address of the instruction being executed (R26). -/
  pc : Word
  /-- The byte buffer (R34). -/
  mem : Memory
  /-- R36. -/
  status : Status
  /-- MEM_SIZE, fixed for the session (00_scope.md R8). -/
  memSize : Nat
  /-- BASE, the address of the most recent load (70_reset_and_hazards.md R270). -/
  base : Word
deriving DecidableEq, Repr

/-- No step of this machine stops with a fault: every error the spec describes is a next state whose status records it
(60_exceptions.md R246), and `step` is total (40_step_sequencer.md R134). So nobody raises one, and there is none. -/
inductive Fault where
deriving DecidableEq, Repr

/-- Why an instruction would have no meaning. -/
inductive Refusal where
  /-- Raised by an arm of `exec` for an instruction not modelled; no arm does, since all 25 are modelled. Safe: a run
  would stop where the hardware goes on. -/
  | notModelled (mnemonic : String)
deriving DecidableEq, Repr

/-- A newly created session (R271), which is the reset state of R270 with the default parameters. -/
def State.reset : State :=
  { x := Vector.replicate 32 0
    pc := Config.defaultBase
    mem := []
    status := .running
    memSize := Config.defaultMemSize
    base := Config.defaultBase }

end Sys2Proof.Machine
end

