-- ==== Sys2Proof/Machine/Ops.lean ====
section
/-! DEFINITION. The named operations over registers and memory (00_scope.md R13, 20_memory.md R55, R56), raising an
error (60_exceptions.md R246), and the transfer of control with its halt test (40_step_sequencer.md R125, R128). -/

namespace Sys2Proof.Machine

/-! Memory as bytes. -/

/-- The byte at address `a`: the listed one, or the fill (10_state.md R35). -/
def Memory.byteAt (m : Memory) (a : Nat) : Byte :=
  match m with
  | [] => Config.fillByte
  | (b, v) :: rest => if b = a then v else Memory.byteAt rest a

/-- The memory with nothing listed at `a`. -/
def Memory.erase (m : Memory) (a : Nat) : Memory :=
  match m with
  | [] => []
  | (b, v) :: rest => if b = a then Memory.erase rest a else (b, v) :: Memory.erase rest a

/-- The memory with `(a, v)` listed before the first higher address. -/
def Memory.insert (m : Memory) (a : Nat) (v : Byte) : Memory :=
  match m with
  | [] => [(a, v)]
  | (b, u) :: rest => if a < b then (a, v) :: (b, u) :: rest else (b, u) :: Memory.insert rest a v

/-- `mem[a] <- v`, in canonical form: the fill value is not listed. -/
def Memory.setByte (m : Memory) (a : Nat) (v : Byte) : Memory :=
  if v = Config.fillByte then m.erase a else (m.erase a).insert a v

/-- `mem[a + k] <- bytes[k]` for every `k` (20_memory.md R60). -/
def Memory.setBytes (m : Memory) (a : Nat) (bytes : List Byte) : Memory :=
  match bytes with
  | [] => m
  | v :: rest => Memory.setBytes (m.setByte a v) (a + 1) rest

/-- The little-endian word at byte address `a` (R53). -/
def Memory.wordAt (m : Memory) (a : Nat) : Word :=
  wordOfBytes (m.byteAt a) (m.byteAt (a + 1)) (m.byteAt (a + 2)) (m.byteAt (a + 3))

/-- The four byte writes of R56. -/
def Memory.setWord (m : Memory) (a : Nat) (v : Word) : Memory := m.setBytes a (bytesOfWord v)

/-- Addresses rise strictly from `lo` on, and no entry equals the fill. -/
def Memory.canonicalFrom (lo : Nat) (m : Memory) : Bool :=
  match m with
  | [] => true
  | (a, v) :: rest => decide (lo ≤ a) && decide (v ≠ Config.fillByte) && Memory.canonicalFrom (a + 1) rest

/-- The canonical form, in which equal memories are equal lists. -/
def Memory.wf (m : Memory) : Bool := m.canonicalFrom 0

/-- Every listed address is below `n`. -/
def Memory.within (m : Memory) (n : Nat) : Bool := m.all fun c => decide (c.1 < n)

/-! Registers (00_scope.md R13). -/

/-- `x[r]`: 0 for `x0`, the stored value otherwise (10_state.md R21). -/
def State.reg (s : State) (r : Reg) : Word := if r = 0 then 0 else s.x[r.toNat]'r.isLt

/-- `x[r] <- v`: discarded for `x0` (10_state.md R21). -/
def State.setReg (s : State) (r : Reg) (v : Word) : State :=
  if r = 0 then s else { s with x := s.x.set r.toNat v r.isLt }

/-- `pc <- t`. -/
def State.setPc (s : State) (t : Word) : State := { s with pc := t }

/-- The default advance of `pc`, modulo 2^32 (10_state.md R27). -/
def State.advance (s : State) : State := s.setPc (s.pc + 4)

/-- The link value `pc + 4` (00_scope.md R16). -/
def State.linkValue (s : State) : Word := s.pc + 4

/-! Errors: the taking of an exception on this hardware (60_exceptions.md R246). -/

/-- `raise e`: registers, memory and `pc` keep their values and the status records the error. Nothing is saved and
control goes nowhere (R246). There is no return from it inside the machine; only `State.resetSession` leaves it (R249). -/
def State.raise (s : State) (e : MachineError) : State := { s with status := .error e }

/-- The successful end of a run (40_step_sequencer.md R128). -/
def State.halt (s : State) : State := { s with status := .halted }

/-! Word accesses (20_memory.md R55 to R59). -/

/-- What a word access at `addr` raises: alignment first, then bounds, the sum in unbounded integers (R55, R56). -/
def State.accessError (s : State) (addr : Word) : Option MachineError :=
  if addr.toNat % 4 ≠ 0 then some (.memoryError .misaligned addr)
  else if addr.toNat + 4 > s.memSize then some (.memoryError .outOfBounds addr)
  else none

/-- `MemRead(addr, 4)` (R55). -/
def State.readWord (s : State) (addr : Word) : Except MachineError Word :=
  match s.accessError addr with
  | some e => .error e
  | none => .ok (s.mem.wordAt addr.toNat)

/-- `MemWrite(addr, 4, v)` (R56). -/
def State.writeWord (s : State) (addr v : Word) : Except MachineError State :=
  match s.accessError addr with
  | some e => .error e
  | none => .ok { s with mem := s.mem.setWord addr.toNat v }

/-- The instruction fetch, `MemRead(pc, 4)` (R58, 40_step_sequencer.md R121). -/
def State.fetch (s : State) : Except MachineError Word := s.readWord s.pc

/-! Ends of an instruction. -/

/-- Writes the result to `rd` and advances `pc` (40_step_sequencer.md R124, R125). -/
def State.writeBack (s : State) (rd : Reg) (v : Word) : State := (s.setReg rd v).advance

/-- Writes the link to `rd`, sets `pc`, and halts when the target is the jump's own address (40_step_sequencer.md
R128, R129). -/
def State.jump (s : State) (rd : Reg) (target : Word) : State :=
  let t := (s.setReg rd s.linkValue).setPc target
  if target = s.pc then t.halt else t

/-- Sets `pc` to the target or to the next instruction (45_branch.md R200). A branch never halts (R129 (d)). -/
def State.branch (s : State) (cond : Bool) (target : Word) : State :=
  if cond then s.setPc target else s.advance

end Sys2Proof.Machine
end

