-- ==== Sys2Proof/Machine/Operands.lean ====
section
/-! DEFINITION. The operand forms: the effective address, the shift amount and the three kinds of target. -/

namespace Sys2Proof.Machine

/-- `x[rs1] + imm` modulo 2^32, the one addressing mode (44_load_store.md R190). -/
def State.effectiveAddress (s : State) (rs1 : Reg) (imm : Word) : Word := s.reg rs1 + imm

/-- The low five bits of `x[rs2]` (41_reg_reg_alu.md R146). -/
def State.shiftAmount (s : State) (rs2 : Reg) : Nat := ((s.reg rs2).extractLsb' 0 5).toNat

/-- `pc + imm` modulo 2^32, `pc` being the address of the instruction itself (45_branch.md R200, 46_jump.md R210,
43_upper_immediate.md R182). -/
def State.pcRelative (s : State) (imm : Word) : Word := s.pc + imm

/-- `(x[rs1] + imm) & 0xFFFFFFFE` (46_jump.md R211). -/
def State.jalrTarget (s : State) (rs1 : Reg) (imm : Word) : Word := (s.reg rs1 + imm) &&& 0xFFFFFFFE#32

end Sys2Proof.Machine
end

