-- ==== Sys2Proof/Machine/Flags.lean ====
section
/-! DEFINITION. The hardware has no flags and no condition codes (10_state.md R31); the only conditions it computes are
those of the four branches, from two register values (45_branch.md R201 to R204). -/

namespace Sys2Proof.Machine

/-- All 32 bits equal (R201). -/
def condEq (a b : Word) : Bool := a == b

/-- Some bit differs (R202). -/
def condNe (a b : Word) : Bool := a != b

/-- `s(a) < s(b)` (R203). -/
def condLt (a b : Word) : Bool := a.slt b

/-- `s(a) >= s(b)` (R204). -/
def condGe (a b : Word) : Bool := b.sle a

end Sys2Proof.Machine
end

