-- ==== Sys2Proof/Machine/Branch.lean ====
section
/-! DEFINITION. The conditional branches (45_branch.md R200 to R204). -/

namespace Sys2Proof.Machine

/-- R201. -/
def execBeq (rs1 rs2 : Reg) (imm : Word) (s : State) : Host.Outcome State Fault Refusal :=
  .next (s.branch (condEq (s.reg rs1) (s.reg rs2)) (s.pcRelative imm))

/-- R202. -/
def execBne (rs1 rs2 : Reg) (imm : Word) (s : State) : Host.Outcome State Fault Refusal :=
  .next (s.branch (condNe (s.reg rs1) (s.reg rs2)) (s.pcRelative imm))

/-- R203. -/
def execBlt (rs1 rs2 : Reg) (imm : Word) (s : State) : Host.Outcome State Fault Refusal :=
  .next (s.branch (condLt (s.reg rs1) (s.reg rs2)) (s.pcRelative imm))

/-- R204. -/
def execBge (rs1 rs2 : Reg) (imm : Word) (s : State) : Host.Outcome State Fault Refusal :=
  .next (s.branch (condGe (s.reg rs1) (s.reg rs2)) (s.pcRelative imm))

end Sys2Proof.Machine
end

