-- ==== Sys2Proof/Machine/Jump.lean ====
section
/-! DEFINITION. The unconditional jumps (46_jump.md R210, R211). -/

namespace Sys2Proof.Machine

/-- R210. -/
def execJal (rd : Reg) (imm : Word) (s : State) : Host.Outcome State Fault Refusal :=
  .next (s.jump rd (s.pcRelative imm))

/-- R211: the target is computed from the old `x[rs1]`. -/
def execJalr (rd rs1 : Reg) (imm : Word) (s : State) : Host.Outcome State Fault Refusal :=
  .next (s.jump rd (s.jalrTarget rs1 imm))

end Sys2Proof.Machine
end

