-- ==== Sys2Proof/Machine/LoadStore.lean ====
section
/-! DEFINITION. The load and the store (44_load_store.md R190 to R192). -/

namespace Sys2Proof.Machine

/-- R191: on an error `rd` is not written and `pc` does not advance. -/
def execLw (rd rs1 : Reg) (imm : Word) (s : State) : Host.Outcome State Fault Refusal :=
  match s.readWord (s.effectiveAddress rs1 imm) with
  | .error e => .next (s.raise e)
  | .ok v => .next (s.writeBack rd v)

/-- R192: on an error no byte changes and `pc` does not advance. -/
def execSw (rs1 rs2 : Reg) (imm : Word) (s : State) : Host.Outcome State Fault Refusal :=
  match s.writeWord (s.effectiveAddress rs1 imm) (s.reg rs2) with
  | .error e => .next (s.raise e)
  | .ok t => .next t.advance

end Sys2Proof.Machine
end

