-- ==== Sys2Proof/Machine/RegImm.lean ====
section
/-! DEFINITION. The register-immediate instructions (42_reg_imm_alu.md R160 to R167). The immediate is the one the
decoder has sign-extended (30_encoding.md R90). -/

namespace Sys2Proof.Machine

/-- R161. -/
def execAddi (rd rs1 : Reg) (imm : Word) (s : State) : Host.Outcome State Fault Refusal :=
  .next (s.writeBack rd (s.reg rs1 + imm))

/-- R162. -/
def execAndi (rd rs1 : Reg) (imm : Word) (s : State) : Host.Outcome State Fault Refusal :=
  .next (s.writeBack rd (s.reg rs1 &&& imm))

/-- R163. -/
def execOri (rd rs1 : Reg) (imm : Word) (s : State) : Host.Outcome State Fault Refusal :=
  .next (s.writeBack rd (s.reg rs1 ||| imm))

/-- R164. -/
def execXori (rd rs1 : Reg) (imm : Word) (s : State) : Host.Outcome State Fault Refusal :=
  .next (s.writeBack rd (s.reg rs1 ^^^ imm))

/-- R165. -/
def execSlli (rd rs1 : Reg) (shamt : BitVec 5) (s : State) : Host.Outcome State Fault Refusal :=
  .next (s.writeBack rd (s.reg rs1 <<< shamt.toNat))

/-- R166. -/
def execSrli (rd rs1 : Reg) (shamt : BitVec 5) (s : State) : Host.Outcome State Fault Refusal :=
  .next (s.writeBack rd (s.reg rs1 >>> shamt.toNat))

/-- R167. -/
def execSrai (rd rs1 : Reg) (shamt : BitVec 5) (s : State) : Host.Outcome State Fault Refusal :=
  .next (s.writeBack rd ((s.reg rs1).sshiftRight shamt.toNat))

end Sys2Proof.Machine
end

