-- ==== Sys2Proof/Machine/RegReg.lean ====
section
/-! DEFINITION. The register-register instructions (41_reg_reg_alu.md R140 to R148). -/

namespace Sys2Proof.Machine

/-- R141. -/
def execAdd (rd rs1 rs2 : Reg) (s : State) : Host.Outcome State Fault Refusal :=
  .next (s.writeBack rd (s.reg rs1 + s.reg rs2))

/-- R142. -/
def execSub (rd rs1 rs2 : Reg) (s : State) : Host.Outcome State Fault Refusal :=
  .next (s.writeBack rd (s.reg rs1 - s.reg rs2))

/-- R143. -/
def execAnd (rd rs1 rs2 : Reg) (s : State) : Host.Outcome State Fault Refusal :=
  .next (s.writeBack rd (s.reg rs1 &&& s.reg rs2))

/-- R144. -/
def execOr (rd rs1 rs2 : Reg) (s : State) : Host.Outcome State Fault Refusal :=
  .next (s.writeBack rd (s.reg rs1 ||| s.reg rs2))

/-- R145. -/
def execXor (rd rs1 rs2 : Reg) (s : State) : Host.Outcome State Fault Refusal :=
  .next (s.writeBack rd (s.reg rs1 ^^^ s.reg rs2))

/-- R146. -/
def execSll (rd rs1 rs2 : Reg) (s : State) : Host.Outcome State Fault Refusal :=
  .next (s.writeBack rd (s.reg rs1 <<< s.shiftAmount rs2))

/-- R147. -/
def execSrl (rd rs1 rs2 : Reg) (s : State) : Host.Outcome State Fault Refusal :=
  .next (s.writeBack rd (s.reg rs1 >>> s.shiftAmount rs2))

/-- R148. -/
def execSra (rd rs1 rs2 : Reg) (s : State) : Host.Outcome State Fault Refusal :=
  .next (s.writeBack rd ((s.reg rs1).sshiftRight (s.shiftAmount rs2)))

end Sys2Proof.Machine
end

