-- ==== Sys2Proof/Machine/Upper.lean ====
section
/-! DEFINITION. The upper-immediate instructions (43_upper_immediate.md R180 to R183). -/

namespace Sys2Proof.Machine

/-- R181. -/
def execLui (rd : Reg) (imm : Word) (s : State) : Host.Outcome State Fault Refusal :=
  .next (s.writeBack rd imm)

/-- R182, R183: `pc` is the address of the `auipc` itself. -/
def execAuipc (rd : Reg) (imm : Word) (s : State) : Host.Outcome State Fault Refusal :=
  .next (s.writeBack rd (s.pcRelative imm))

end Sys2Proof.Machine
end

