-- ==== Sys2Proof/Machine/Cycle.lean ====
section
/-! DEFINITION. The cycle of one step (40_step_sequencer.md R120): fetch, decode, execute, commit; and the pipeline's
placing of a word where the cycle fetches. -/

namespace Sys2Proof.Machine

/-- R120. A terminal status is kept (R130); a fetch error wins over a decode error, which wins over a data error
(60_exceptions.md R247). -/
def cycle (s : State) : Host.Outcome State Fault Refusal :=
  match s.status with
  | .halted => .next s
  | .error _ => .next s
  | .running =>
    match s.fetch with
    | .error e => .next (s.raise e)
    | .ok w =>
      match decode w with
      | .unsupported => .next (s.raise (.decodeError w s.pc))
      | .instr i => exec i s

/-- The state with the word stored at `pc` and the status `running`, so that the next cycle fetches and runs it. It is
the checking pipeline's probe of one instruction: no transition of the machine and no operation of its host, which can
do neither (40_step_sequencer.md R136). In a running session whose `pc` is its BASE it is the load of that one word.
Where `pc` cannot be fetched from, no store can make it run and the state is kept (log entry 6). -/
def State.placeAtPc (s : State) (w : Word) : State :=
  match s.writeWord s.pc w with
  | .ok t => { t with status := .running }
  | .error _ => s

end Sys2Proof.Machine
end

