-- ==== Sys2Proof/Machine/Step.lean ====
section
/-! DEFINITION. One step of the machine, and the checking pipeline's placing of an instruction. Both only call `Cycle.lean`. -/

namespace Sys2Proof.Machine

/-- `step`, the only transition of the machine (40_step_sequencer.md R120). -/
def step (s : State) : Host.Outcome State Fault Refusal := cycle s

/-- The state whose next step runs the instruction word `w` (its low `nbits` bits). The checking pipeline
uses it; the machine and its host do not (log entry 6). -/
def State.withFetchWord (s : State) (nbits w : Nat) : State := s.placeAtPc (BitVec.ofNat 32 (w % 2 ^ nbits))

end Sys2Proof.Machine
end

