-- ==== Sys2Proof/Machine/Retire.lean ====
section
/-! DEFINITION. What a step reports (40_step_sequencer.md R131, R132) and the run (R133). The event is the step's output
to an observer outside the core, so it is a function of the state before the step and no field of State (10_state.md
R40; log entry 5). -/

namespace Sys2Proof.Machine

/-- `Retire(tag, taken)` (R131). `taken` is absent for an instruction that is no branch and no jump. -/
structure RetireEvent where
  tag : Tag
  taken : Option Bool
deriving DecidableEq, Repr

/-- R131: a branch reports its condition, a jump is always taken (D16). -/
def takenBy (i : Instr) (s : State) : Option Bool :=
  match i with
  | .beq rs1 rs2 _ => some (condEq (s.reg rs1) (s.reg rs2))
  | .bne rs1 rs2 _ => some (condNe (s.reg rs1) (s.reg rs2))
  | .blt rs1 rs2 _ => some (condLt (s.reg rs1) (s.reg rs2))
  | .bge rs1 rs2 _ => some (condGe (s.reg rs1) (s.reg rs2))
  | .jal _ _ | .jalr _ _ _ => some true
  | .add _ _ _ | .sub _ _ _ | .sll _ _ _ | .xor _ _ _ | .srl _ _ _ | .sra _ _ _ | .or _ _ _ | .and _ _ _ => none
  | .addi _ _ _ | .xori _ _ _ | .ori _ _ _ | .andi _ _ _ | .slli _ _ _ | .srli _ _ _ | .srai _ _ _ => none
  | .lw _ _ _ | .sw _ _ _ | .lui _ _ | .auipc _ _ => none

/-- The event of an instruction that ended in `t`; an instruction that raised emits none (R131). -/
def eventOf (i : Instr) (s t : State) : Option RetireEvent :=
  match t.status with
  | .error _ => none
  | .running => some { tag := i.tag, taken := takenBy i s }
  | .halted => some { tag := i.tag, taken := takenBy i s }

/-- The event the step from `s` emits (R131): none in a terminal status (R130), none when the step raises. -/
def State.retireEvent (s : State) : Option RetireEvent :=
  match s.status with
  | .halted => none
  | .error _ => none
  | .running =>
    match s.fetch with
    | .error _ => none
    | .ok w =>
      match decode w with
      | .unsupported => none
      | .instr i =>
        match exec i s with
        | .next t => eventOf i s t
        | .fault _ => none
        | .refused _ => none

/-- `run()` under a step budget (R133, 70_reset_and_hazards.md R281), with the events it emits in order. Running out of
budget is not a state of the machine: the state reached is then still `running`. -/
def runLog (fuel : Nat) (s : State) : State × List RetireEvent :=
  match fuel with
  | 0 => (s, [])
  | k + 1 =>
    match s.status with
    | .halted => (s, [])
    | .error _ => (s, [])
    | .running =>
      match step s with
      | .next t => ((runLog k t).1, s.retireEvent.toList ++ (runLog k t).2)
      | .fault _ => (s, [])
      | .refused _ => (s, [])

/-- The state a run of at most `fuel` steps ends in (R133, R135). -/
def run (fuel : Nat) (s : State) : State := (runLog fuel s).1

/-- The executed-instruction count of such a run (R132). -/
def retireCount (fuel : Nat) (s : State) : Nat := (runLog fuel s).2.length

end Sys2Proof.Machine
end

