-- ==== Sys2Proof/Machine/Session.lean ====
section
/-! DEFINITION. The host's entry points other than `step` and `run` (40_step_sequencer.md R136): reset, load, the launch
state, and read-only inspection. -/

namespace Sys2Proof.Machine

/-- `reset()` (70_reset_and_hazards.md R270): the only way out of a terminal status (60_exceptions.md R249). BASE and
MEM_SIZE are kept, nothing else of the state before it matters. -/
def State.resetSession (s : State) : State :=
  { State.reset with pc := s.base, memSize := s.memSize, base := s.base }

/-- `load(bytes, base)` (20_memory.md R60). `none` is the failure, which changes nothing (D19). -/
def State.loadImage (s : State) (bytes : List Byte) (base : Word) : Option State :=
  if base.toNat % 4 ≠ 0 ∨ base.toNat + bytes.length > s.memSize then none
  else some { s with mem := s.mem.setBytes base.toNat bytes, base := base, pc := base }

/-- The launch state `L(IMAGE, BASE, MEM_SIZE)`: a fresh session of that size, then the load (70_reset_and_hazards.md
R272). `none` is a refused launch. -/
def launchState (image : List Byte) (base : Word) (memSize : Nat) : Option State :=
  if Config.legalMemSize memSize then State.loadImage { State.reset with memSize := memSize } image base else none

/-- The host's reading of one memory word (R136). -/
def State.inspectWord (s : State) (addr : Word) : Except MachineError Word := s.readWord addr

/-- The `n` bytes from `a` on. -/
def Memory.bytesFrom (m : Memory) (a n : Nat) : List Byte :=
  match n with
  | 0 => []
  | k + 1 => m.byteAt a :: Memory.bytesFrom m (a + 1) k

/-- The host's reading of a memory range (R136); `none` is the error reported for a range outside the buffer. -/
def State.inspectBytes (s : State) (a n : Nat) : Option (List Byte) :=
  if a + n > s.memSize then none else some (s.mem.bytesFrom a n)

/-- The disassembly of the one word at `addr`: the same decoder, no state change (30_encoding.md R101). -/
def State.disassemble (s : State) (addr : Word) : Except MachineError Decoded :=
  match s.readWord addr with
  | .error e => .error e
  | .ok w => .ok (decode w)

/-- One line of a disassembly. -/
structure DisassembledWord where
  addr : Nat
  word : Word
  decoded : Decoded
deriving DecidableEq, Repr

/-- The disassembly of the `n` words from `a` on. An unsupported word is listed as such and does not end it (log entry
22). -/
def Memory.disassembly (m : Memory) (a n : Nat) : List DisassembledWord :=
  match n with
  | 0 => []
  | k + 1 => { addr := a, word := m.wordAt a, decoded := decode (m.wordAt a) } :: Memory.disassembly m (a + 4) k

/-- `disassemble`, "decode forward from a given address without mutating state" (R136); `none` is the error reported for
words that are not aligned or not all in the buffer. -/
def State.disassembleForward (s : State) (addr : Word) (n : Nat) : Option (List DisassembledWord) :=
  if addr.toNat % 4 ≠ 0 ∨ addr.toNat + 4 * n > s.memSize then none else some (s.mem.disassembly addr.toNat n)

end Sys2Proof.Machine
end

