-- ==== Sys2Proof/Machine/Command.lean ====
section
/-! DEFINITION. What the host can do to a session (40_step_sequencer.md R136). The read-only inspection is in
`Session.lean`; `State.withFetchWord` is no operation of the host (log entry 6). -/

namespace Sys2Proof.Machine

/-- The host's operations that change a session: these four and no other. None writes a register, writes memory during a
run, sets `pc` elsewhere than a base, clears an error or resumes after a halt (R136, D23). -/
inductive HostCommand where
  | reset
  | load (bytes : List Byte) (base : Word)
  | step
  | run (fuel : Nat)
deriving DecidableEq, Repr

/-- The session after a command; `none` is the error reported to the caller, which leaves the session as it was (R136). -/
def State.command (s : State) (c : HostCommand) : Option State :=
  match c with
  | .reset => some s.resetSession
  | .load bytes base => s.loadImage bytes base
  | .step =>
    match Sys2Proof.Machine.step s with
    | .next t => some t
    | .fault _ => none
    | .refused _ => none
  | .run fuel => some (Sys2Proof.Machine.run fuel s)

end Sys2Proof.Machine
end

