-- ==== Sys2Proof/Safety.lean ====
section
/-! DEFINITION. The words claims are stated in: a legal state, a state in error, and what one instruction leaves alone. -/

namespace Sys2Proof.Machine

/-- The run has ended by an error (60_exceptions.md R248). -/
def State.failed (s : State) : Prop := ∃ e, s.status = .error e

/-- What every state of a session satisfies: a legal MEM_SIZE (00_scope.md R8), a memory in canonical form inside it,
`x0`'s slot at 0 (10_state.md R21), an even `pc` (R28) and a word-aligned BASE (R29). -/
def State.legal (s : State) : Prop :=
  Config.legalMemSize s.memSize = true ∧ s.mem.wf = true ∧ s.mem.within s.memSize = true ∧
    s.x[0] = 0 ∧ s.pc.toNat % 2 = 0 ∧ s.base.toNat % 4 = 0

/-- Every register but `rd` reads as before (`x0` as 0). -/
def SameRegsBut (rd : Reg) (s t : State) : Prop := ∀ r, r ≠ rd → t.reg r = s.reg r

/-- Every register reads as before. -/
def SameRegs (s t : State) : Prop := ∀ r, t.reg r = s.reg r

/-- Every byte of memory reads as before. -/
def SameMemory (s t : State) : Prop := ∀ a, t.mem.byteAt a = s.mem.byteAt a

/-- Every byte outside the word at `ea` reads as before. -/
def SameMemoryBut (ea : Word) (s t : State) : Prop :=
  ∀ a, (a < ea.toNat ∨ ea.toNat + 4 ≤ a) → t.mem.byteAt a = s.mem.byteAt a

/-- The session's parameters, which no instruction writes (10_state.md R41). -/
def SameParameters (s t : State) : Prop := t.memSize = s.memSize ∧ t.base = s.base

/-- The frame of an instruction that writes a result to `rd` and goes to the next instruction: nothing but `rd` and `pc`
changes, `pc` advances by 4, and `x0` still reads 0. -/
def ResultFrame (rd : Reg) (s t : State) : Prop :=
  SameRegsBut rd s t ∧ t.reg 0 = 0 ∧ SameMemory s t ∧ t.status = s.status ∧ SameParameters s t ∧ t.pc = s.pc + 4

/-- The frame of a branch: nothing but `pc` changes (45_branch.md R200). -/
def BranchFrame (s t : State) : Prop := SameRegs s t ∧ SameMemory s t ∧ t.status = s.status ∧ SameParameters s t

/-- The frame of a jump, `pc` and the status apart: nothing but `rd` changes, and `x0` still reads 0. -/
def JumpFrame (rd : Reg) (s t : State) : Prop := SameRegsBut rd s t ∧ t.reg 0 = 0 ∧ SameMemory s t ∧ SameParameters s t

/-- The words that agree with `pattern` under `mask` decode to the instruction `f` reads from them (30_encoding.md R99). -/
def RowDecodes (mask pattern : Word) (f : Word → Instr) : Prop := ∀ w, w &&& mask = pattern → decode w = .instr (f w)

/-- The six control-transfer instructions (46_jump.md R212). -/
def isControlTransfer (t : Tag) : Bool :=
  match t with
  | .beq | .bne | .blt | .bge | .jal | .jalr => true
  | .add | .sub | .sll | .xor | .srl | .sra | .or | .and => false
  | .addi | .xori | .ori | .andi | .slli | .srli | .srai | .lw | .sw | .lui | .auipc => false

/-- The two jumps (40_step_sequencer.md R128). -/
def isJump (t : Tag) : Bool :=
  match t with
  | .jal | .jalr => true
  | .beq | .bne | .blt | .bge => false
  | .add | .sub | .sll | .xor | .srl | .sra | .or | .and => false
  | .addi | .xori | .ori | .andi | .slli | .srli | .srai | .lw | .sw | .lui | .auipc => false

end Sys2Proof.Machine
end

