-- ==== Sys2Proof/Certificates/Slice0/Obligations.lean ====
section
/-! DEFINITION. The statements for the provers. Each docstring names the rules of `spec/` the statement formalises. -/

open Sys2Proof Sys2Proof.Machine

/-- The first half of the round-trip law of 30_encoding.md R103 (the encoding itself is the decision D6, log entry 11). -/
def Obligations.DecodeOfEncode : Prop :=
  ∀ i : Instr, i.wf = true → decode (encode i) = .instr i

/-- The second half of the round-trip law of 30_encoding.md R103, which the spec marks as derived. -/
def Obligations.EncodeOfDecode : Prop :=
  ∀ (w : Word) (i : Instr), decode w = .instr i → encode i = w

/-- The ranges of 30_encoding.md R90 to R95. -/
def Obligations.DecodedInstructionsAreWellFormed : Prop :=
  ∀ (w : Word) (i : Instr), decode w = .instr i → i.wf = true

/-- 30_encoding.md R99, whose disjointness the spec marks as derived. -/
def Obligations.DecodeAgreesWithMaskTable : Prop :=
  (∀ (w : Word) (t : Tag), w &&& t.mask = t.pattern ↔ ∃ i, decode w = .instr i ∧ i.tag = t) ∧
    (∀ (w : Word) (t u : Tag), w &&& t.mask = t.pattern → w &&& u.mask = u.pattern → t = u) ∧
    ∀ w : Word, (∀ t : Tag, w &&& t.mask ≠ t.pattern) → decode w = .unsupported

/-- 47_unsupported.md R221 (the 119 other opcodes) and R222 (the table, row by row). -/
def Obligations.UnsupportedCombinations : Prop :=
  ∀ (s : State) (w : Word), s.status = .running → s.fetch = .ok w →
    let op := w.extractLsb' 0 7
    let f3 := w.extractLsb' 12 3
    let f7 := w.extractLsb' 25 7
    (step s = .next { s with status := .error (.decodeError w s.pc) } ↔
      op ∉ [0b0110011#7, 0b0010011#7, 0b0000011#7, 0b0100011#7, 0b1100011#7, 0b1100111#7, 0b1101111#7, 0b0110111#7,
          0b0010111#7] ∨
        (op = 0b0000011#7 ∧ f3 ≠ 0b010#3) ∨
        (op = 0b0100011#7 ∧ f3 ≠ 0b010#3) ∨
        (op = 0b0110011#7 ∧ f3 ∈ [0b010#3, 0b011#3]) ∨
        (op = 0b0010011#7 ∧ f3 ∈ [0b010#3, 0b011#3]) ∨
        (op = 0b1100011#7 ∧ f3 ∈ [0b010#3, 0b011#3, 0b110#3, 0b111#3]) ∨
        (op = 0b0010011#7 ∧ f3 = 0b001#3 ∧ f7 ≠ 0b0000000#7) ∨
        (op = 0b0010011#7 ∧ f3 = 0b101#3 ∧ f7 ∉ [0b0000000#7, 0b0100000#7]) ∨
        (op = 0b1100111#7 ∧ f3 ≠ 0b000#3) ∨
        (op = 0b0110011#7 ∧ f7 ∉ [0b0000000#7, 0b0100000#7]) ∨
        (op = 0b0110011#7 ∧ f7 = 0b0100000#7 ∧ f3 ∉ [0b000#3, 0b101#3]))

/-- 47_unsupported.md R220; that no later step changes the state reached is R130 and R248, the spec's decision D5 (log entry 10). -/
def Obligations.UnsupportedWordsFail : Prop :=
  ∀ (s : State) (w : Word), s.status = .running → s.fetch = .ok w → decode w = .unsupported →
    ∃ t, step s = .next t ∧ t.status = .error (.decodeError w s.pc) ∧ SameRegs s t ∧ SameMemory s t ∧ t.pc = s.pc ∧
      SameParameters s t ∧ s.retireEvent = none ∧ step t = .next t

/-- Words of 95_test_vectors.md sections 2.7 and 2.8: a sanity statement on fixed words. -/
def Obligations.ExampleWordsDecode : Prop :=
  decode 0x01FF8FB3#32 = .instr (.add 31 31 31) ∧ decode 0x40118233#32 = .instr (.sub 4 3 1) ∧
    decode 0x80000093#32 = .instr (.addi 1 0 (-2048)) ∧ decode 0x41FFDF93#32 = .instr (.srai 31 31 31) ∧
    decode 0xFFFFAF83#32 = .instr (.lw 31 31 (-1)) ∧ decode 0x7E62AFA3#32 = .instr (.sw 5 6 2047) ∧
    decode 0x002080E3#32 = .instr (.beq 1 2 2048) ∧ decode 0x81EF9063#32 = .instr (.bne 31 30 (-4096)) ∧
    decode 0xABCDEFB7#32 = .instr (.lui 31 0xABCDE000) ∧ decode 0x7FF7FFEF#32 = .instr (.jal 31 524286) ∧
    decode 0x800F8067#32 = .instr (.jalr 0 31 (-2048)) ∧ decode 0x00000073#32 = .unsupported ∧
    decode 0x0FF0000F#32 = .unsupported ∧ decode 0x022081B3#32 = .unsupported ∧ decode 0x00028303#32 = .unsupported

/-- 41_reg_reg_alu.md R141, with the encoding of the spec's decision D6 (log entry 11). -/
def Obligations.AddEffect : Prop :=
  RowDecodes 0xFE00707F#32 0x00000033#32 (fun w => .add (w.extractLsb' 7 5) (w.extractLsb' 15 5) (w.extractLsb' 20 5)) ∧
    ∀ (rd rs1 rs2 : Reg) (s : State), ∃ t, exec (.add rd rs1 rs2) s = .next t ∧ ResultFrame rd s t ∧
      (rd ≠ 0 → (t.reg rd).toNat = ((s.reg rs1).toNat + (s.reg rs2).toNat) % 2 ^ 32)

/-- 41_reg_reg_alu.md R142, with the encoding of the spec's decision D6 (log entry 11). -/
def Obligations.SubEffect : Prop :=
  RowDecodes 0xFE00707F#32 0x40000033#32 (fun w => .sub (w.extractLsb' 7 5) (w.extractLsb' 15 5) (w.extractLsb' 20 5)) ∧
    ∀ (rd rs1 rs2 : Reg) (s : State), ∃ t, exec (.sub rd rs1 rs2) s = .next t ∧ ResultFrame rd s t ∧
      (rd ≠ 0 → ((t.reg rd).toNat : Int) = (((s.reg rs1).toNat : Int) - (s.reg rs2).toNat) % 2 ^ 32)

/-- 41_reg_reg_alu.md R143, with the encoding of the spec's decision D6 (log entry 11). -/
def Obligations.AndEffect : Prop :=
  RowDecodes 0xFE00707F#32 0x00007033#32 (fun w => .and (w.extractLsb' 7 5) (w.extractLsb' 15 5) (w.extractLsb' 20 5)) ∧
    ∀ (rd rs1 rs2 : Reg) (s : State), ∃ t, exec (.and rd rs1 rs2) s = .next t ∧ ResultFrame rd s t ∧
      (rd ≠ 0 → ∀ k, k < 32 → (t.reg rd).getLsbD k = ((s.reg rs1).getLsbD k && (s.reg rs2).getLsbD k))

/-- 41_reg_reg_alu.md R144, with the encoding of the spec's decision D6 (log entry 11). -/
def Obligations.OrEffect : Prop :=
  RowDecodes 0xFE00707F#32 0x00006033#32 (fun w => .or (w.extractLsb' 7 5) (w.extractLsb' 15 5) (w.extractLsb' 20 5)) ∧
    ∀ (rd rs1 rs2 : Reg) (s : State), ∃ t, exec (.or rd rs1 rs2) s = .next t ∧ ResultFrame rd s t ∧
      (rd ≠ 0 → ∀ k, k < 32 → (t.reg rd).getLsbD k = ((s.reg rs1).getLsbD k || (s.reg rs2).getLsbD k))

/-- 41_reg_reg_alu.md R145, with the encoding of the spec's decision D6 (log entry 11). -/
def Obligations.XorEffect : Prop :=
  RowDecodes 0xFE00707F#32 0x00004033#32 (fun w => .xor (w.extractLsb' 7 5) (w.extractLsb' 15 5) (w.extractLsb' 20 5)) ∧
    ∀ (rd rs1 rs2 : Reg) (s : State), ∃ t, exec (.xor rd rs1 rs2) s = .next t ∧ ResultFrame rd s t ∧
      (rd ≠ 0 → ∀ k, k < 32 → (t.reg rd).getLsbD k = ((s.reg rs1).getLsbD k ^^ (s.reg rs2).getLsbD k))

/-- 41_reg_reg_alu.md R146, with the encoding of the spec's decision D6 (log entry 11). -/
def Obligations.SllEffect : Prop :=
  RowDecodes 0xFE00707F#32 0x00001033#32 (fun w => .sll (w.extractLsb' 7 5) (w.extractLsb' 15 5) (w.extractLsb' 20 5)) ∧
    ∀ (rd rs1 rs2 : Reg) (s : State), ∃ t, exec (.sll rd rs1 rs2) s = .next t ∧ ResultFrame rd s t ∧
      (rd ≠ 0 → (t.reg rd).toNat = (s.reg rs1).toNat * 2 ^ ((s.reg rs2).toNat % 32) % 2 ^ 32)

/-- 41_reg_reg_alu.md R147, with the encoding of the spec's decision D6 (log entry 11). -/
def Obligations.SrlEffect : Prop :=
  RowDecodes 0xFE00707F#32 0x00005033#32 (fun w => .srl (w.extractLsb' 7 5) (w.extractLsb' 15 5) (w.extractLsb' 20 5)) ∧
    ∀ (rd rs1 rs2 : Reg) (s : State), ∃ t, exec (.srl rd rs1 rs2) s = .next t ∧ ResultFrame rd s t ∧
      (rd ≠ 0 → (t.reg rd).toNat = (s.reg rs1).toNat / 2 ^ ((s.reg rs2).toNat % 32))

/-- 41_reg_reg_alu.md R148, with the encoding of the spec's decision D6 (log entry 11). The sign fill is marked there as general knowledge (G5). -/
def Obligations.SraEffect : Prop :=
  RowDecodes 0xFE00707F#32 0x40005033#32 (fun w => .sra (w.extractLsb' 7 5) (w.extractLsb' 15 5) (w.extractLsb' 20 5)) ∧
    ∀ (rd rs1 rs2 : Reg) (s : State), ∃ t, exec (.sra rd rs1 rs2) s = .next t ∧ ResultFrame rd s t ∧
      (rd ≠ 0 → (t.reg rd).toInt = (s.reg rs1).toInt / 2 ^ ((s.reg rs2).toNat % 32))

/-- 42_reg_imm_alu.md R161, with the encoding of the spec's decision D6 (log entry 11). -/
def Obligations.AddiEffect : Prop :=
  RowDecodes 0x0000707F#32 0x00000013#32 (fun w => .addi (w.extractLsb' 7 5) (w.extractLsb' 15 5) ((w.extractLsb' 20 12).signExtend 32)) ∧
    ∀ (rd rs1 : Reg) (imm : Word) (s : State), ∃ t, exec (.addi rd rs1 imm) s = .next t ∧ ResultFrame rd s t ∧
      (rd ≠ 0 → (t.reg rd).toNat = ((s.reg rs1).toNat + imm.toNat) % 2 ^ 32)

/-- 42_reg_imm_alu.md R162, with the encoding of the spec's decision D6 (log entry 11). -/
def Obligations.AndiEffect : Prop :=
  RowDecodes 0x0000707F#32 0x00007013#32 (fun w => .andi (w.extractLsb' 7 5) (w.extractLsb' 15 5) ((w.extractLsb' 20 12).signExtend 32)) ∧
    ∀ (rd rs1 : Reg) (imm : Word) (s : State), ∃ t, exec (.andi rd rs1 imm) s = .next t ∧ ResultFrame rd s t ∧
      (rd ≠ 0 → ∀ k, k < 32 → (t.reg rd).getLsbD k = ((s.reg rs1).getLsbD k && imm.getLsbD k))

/-- 42_reg_imm_alu.md R163, with the encoding of the spec's decision D6 (log entry 11). -/
def Obligations.OriEffect : Prop :=
  RowDecodes 0x0000707F#32 0x00006013#32 (fun w => .ori (w.extractLsb' 7 5) (w.extractLsb' 15 5) ((w.extractLsb' 20 12).signExtend 32)) ∧
    ∀ (rd rs1 : Reg) (imm : Word) (s : State), ∃ t, exec (.ori rd rs1 imm) s = .next t ∧ ResultFrame rd s t ∧
      (rd ≠ 0 → ∀ k, k < 32 → (t.reg rd).getLsbD k = ((s.reg rs1).getLsbD k || imm.getLsbD k))

/-- 42_reg_imm_alu.md R164, with the encoding of the spec's decision D6 (log entry 11). -/
def Obligations.XoriEffect : Prop :=
  RowDecodes 0x0000707F#32 0x00004013#32 (fun w => .xori (w.extractLsb' 7 5) (w.extractLsb' 15 5) ((w.extractLsb' 20 12).signExtend 32)) ∧
    ∀ (rd rs1 : Reg) (imm : Word) (s : State), ∃ t, exec (.xori rd rs1 imm) s = .next t ∧ ResultFrame rd s t ∧
      (rd ≠ 0 → ∀ k, k < 32 → (t.reg rd).getLsbD k = ((s.reg rs1).getLsbD k ^^ imm.getLsbD k))

/-- 42_reg_imm_alu.md R165, with the encoding of the spec's decision D6 (log entry 11). -/
def Obligations.SlliEffect : Prop :=
  RowDecodes 0xFE00707F#32 0x00001013#32 (fun w => .slli (w.extractLsb' 7 5) (w.extractLsb' 15 5) (w.extractLsb' 20 5)) ∧
    (∀ (rd rs1 : Reg) (shamt : BitVec 5) (s : State), ∃ t, exec (.slli rd rs1 shamt) s = .next t ∧ ResultFrame rd s t ∧
      (rd ≠ 0 → (t.reg rd).toNat = (s.reg rs1).toNat * 2 ^ shamt.toNat % 2 ^ 32)) ∧
    ∀ w : Word, w.extractLsb' 0 7 = 0b0010011#7 → w.extractLsb' 12 3 = 0b001#3 → w.extractLsb' 25 7 ≠ 0b0000000#7 →
      decode w = .unsupported

/-- 42_reg_imm_alu.md R166, with the encoding of the spec's decision D6 (log entry 11). -/
def Obligations.SrliEffect : Prop :=
  RowDecodes 0xFE00707F#32 0x00005013#32 (fun w => .srli (w.extractLsb' 7 5) (w.extractLsb' 15 5) (w.extractLsb' 20 5)) ∧
    (∀ (rd rs1 : Reg) (shamt : BitVec 5) (s : State), ∃ t, exec (.srli rd rs1 shamt) s = .next t ∧ ResultFrame rd s t ∧
      (rd ≠ 0 → (t.reg rd).toNat = (s.reg rs1).toNat / 2 ^ shamt.toNat)) ∧
    ∀ w : Word, w.extractLsb' 0 7 = 0b0010011#7 → w.extractLsb' 12 3 = 0b101#3 → w.extractLsb' 25 7 ≠ 0b0000000#7 →
      w.extractLsb' 25 7 ≠ 0b0100000#7 → decode w = .unsupported

/-- 42_reg_imm_alu.md R167, with the encoding of the spec's decision D6 (log entry 11). The sign fill is marked there as general knowledge (G5). -/
def Obligations.SraiEffect : Prop :=
  RowDecodes 0xFE00707F#32 0x40005013#32 (fun w => .srai (w.extractLsb' 7 5) (w.extractLsb' 15 5) (w.extractLsb' 20 5)) ∧
    ∀ (rd rs1 : Reg) (shamt : BitVec 5) (s : State), ∃ t, exec (.srai rd rs1 shamt) s = .next t ∧ ResultFrame rd s t ∧
      (rd ≠ 0 → (t.reg rd).toInt = (s.reg rs1).toInt / 2 ^ shamt.toNat)

/-- 43_upper_immediate.md R181, with the encoding of the spec's decision D6 (log entry 11). -/
def Obligations.LuiEffect : Prop :=
  RowDecodes 0x0000007F#32 0x00000037#32 (fun w => .lui (w.extractLsb' 7 5) (w.extractLsb' 12 20 ++ 0#12)) ∧
    ∀ (rd : Reg) (imm : Word) (s : State), ∃ t, exec (.lui rd imm) s = .next t ∧ ResultFrame rd s t ∧
      (rd ≠ 0 → t.reg rd = imm)

/-- 43_upper_immediate.md R182, with the encoding of the spec's decision D6 (log entry 11). -/
def Obligations.AuipcEffect : Prop :=
  RowDecodes 0x0000007F#32 0x00000017#32 (fun w => .auipc (w.extractLsb' 7 5) (w.extractLsb' 12 20 ++ 0#12)) ∧
    ∀ (rd : Reg) (imm : Word) (s : State), ∃ t, exec (.auipc rd imm) s = .next t ∧ ResultFrame rd s t ∧
      (rd ≠ 0 → (t.reg rd).toNat = (s.pc.toNat + imm.toNat) % 2 ^ 32)

/-- 44_load_store.md R191, with the encoding D6 and the byte order D1 (log entries 11, 8). For x0 as destination the access is still made and can raise. -/
def Obligations.LoadWordEffect : Prop :=
  RowDecodes 0x0000707F#32 0x00002003#32 (fun w => .lw (w.extractLsb' 7 5) (w.extractLsb' 15 5) ((w.extractLsb' 20 12).signExtend 32)) ∧
    ∀ (rd rs1 : Reg) (imm : Word) (s : State),
      let ea := s.reg rs1 + imm
      (ea.toNat % 4 ≠ 0 →
        exec (.lw rd rs1 imm) s = .next { s with status := .error (.memoryError .misaligned ea) }) ∧
      (ea.toNat % 4 = 0 → ea.toNat + 4 > s.memSize →
        exec (.lw rd rs1 imm) s = .next { s with status := .error (.memoryError .outOfBounds ea) }) ∧
      (ea.toNat % 4 = 0 → ea.toNat + 4 ≤ s.memSize →
        ∃ t, exec (.lw rd rs1 imm) s = .next t ∧ ResultFrame rd s t ∧
          (rd ≠ 0 → t.reg rd = s.mem.byteAt (ea.toNat + 3) ++ s.mem.byteAt (ea.toNat + 2) ++ s.mem.byteAt (ea.toNat + 1) ++
            s.mem.byteAt ea.toNat))

/-- 44_load_store.md R192, with the encoding D6 and the byte order D1 of 20_memory.md R53 (log entries 11, 8). -/
def Obligations.StoreWordEffect : Prop :=
  RowDecodes 0x0000707F#32 0x00002023#32 (fun w => .sw (w.extractLsb' 15 5) (w.extractLsb' 20 5) ((w.extractLsb' 25 7 ++ w.extractLsb' 7 5 : BitVec 12).signExtend 32)) ∧
    ∀ (rs1 rs2 : Reg) (imm : Word) (s : State),
      let ea := s.reg rs1 + imm
      (ea.toNat % 4 ≠ 0 →
        exec (.sw rs1 rs2 imm) s = .next { s with status := .error (.memoryError .misaligned ea) }) ∧
      (ea.toNat % 4 = 0 → ea.toNat + 4 > s.memSize →
        exec (.sw rs1 rs2 imm) s = .next { s with status := .error (.memoryError .outOfBounds ea) }) ∧
      (ea.toNat % 4 = 0 → ea.toNat + 4 ≤ s.memSize →
        ∃ t, exec (.sw rs1 rs2 imm) s = .next t ∧ SameRegs s t ∧ SameMemoryBut ea s t ∧ t.status = s.status ∧
          SameParameters s t ∧ t.pc = s.pc + 4 ∧
          ∀ k, k < 4 → t.mem.byteAt (ea.toNat + k) = (s.reg rs2).extractLsb' (8 * k) 8)

/-- 45_branch.md R201, with the transfer of R200 and the encoding D6 (log entry 11). -/
def Obligations.BeqEffect : Prop :=
  RowDecodes 0x0000707F#32 0x00000063#32 (fun w => .beq (w.extractLsb' 15 5) (w.extractLsb' 20 5) ((w.extractLsb' 31 1 ++ w.extractLsb' 7 1 ++ w.extractLsb' 25 6 ++ w.extractLsb' 8 4 ++ 0#1 : BitVec 13).signExtend 32)) ∧
    ∀ (rs1 rs2 : Reg) (imm : Word) (s : State), ∃ t, exec (.beq rs1 rs2 imm) s = .next t ∧ BranchFrame s t ∧
      (s.reg rs1 = s.reg rs2 → t.pc = s.pc + imm ∧ takenBy (.beq rs1 rs2 imm) s = some true) ∧
      (s.reg rs1 ≠ s.reg rs2 → t.pc = s.pc + 4 ∧ takenBy (.beq rs1 rs2 imm) s = some false)

/-- 45_branch.md R202, with the transfer of R200 and the encoding D6 (log entry 11). -/
def Obligations.BneEffect : Prop :=
  RowDecodes 0x0000707F#32 0x00001063#32 (fun w => .bne (w.extractLsb' 15 5) (w.extractLsb' 20 5) ((w.extractLsb' 31 1 ++ w.extractLsb' 7 1 ++ w.extractLsb' 25 6 ++ w.extractLsb' 8 4 ++ 0#1 : BitVec 13).signExtend 32)) ∧
    ∀ (rs1 rs2 : Reg) (imm : Word) (s : State), ∃ t, exec (.bne rs1 rs2 imm) s = .next t ∧ BranchFrame s t ∧
      (s.reg rs1 ≠ s.reg rs2 → t.pc = s.pc + imm ∧ takenBy (.bne rs1 rs2 imm) s = some true) ∧
      (s.reg rs1 = s.reg rs2 → t.pc = s.pc + 4 ∧ takenBy (.bne rs1 rs2 imm) s = some false)

/-- 45_branch.md R203, with the transfer of R200 and the encoding D6 (log entry 11). -/
def Obligations.BltEffect : Prop :=
  RowDecodes 0x0000707F#32 0x00004063#32 (fun w => .blt (w.extractLsb' 15 5) (w.extractLsb' 20 5) ((w.extractLsb' 31 1 ++ w.extractLsb' 7 1 ++ w.extractLsb' 25 6 ++ w.extractLsb' 8 4 ++ 0#1 : BitVec 13).signExtend 32)) ∧
    ∀ (rs1 rs2 : Reg) (imm : Word) (s : State), ∃ t, exec (.blt rs1 rs2 imm) s = .next t ∧ BranchFrame s t ∧
      ((s.reg rs1).toInt < (s.reg rs2).toInt → t.pc = s.pc + imm ∧ takenBy (.blt rs1 rs2 imm) s = some true) ∧
      ((s.reg rs2).toInt ≤ (s.reg rs1).toInt → t.pc = s.pc + 4 ∧ takenBy (.blt rs1 rs2 imm) s = some false)

/-- 45_branch.md R204, with the transfer of R200 and the encoding D6 (log entry 11). -/
def Obligations.BgeEffect : Prop :=
  RowDecodes 0x0000707F#32 0x00005063#32 (fun w => .bge (w.extractLsb' 15 5) (w.extractLsb' 20 5) ((w.extractLsb' 31 1 ++ w.extractLsb' 7 1 ++ w.extractLsb' 25 6 ++ w.extractLsb' 8 4 ++ 0#1 : BitVec 13).signExtend 32)) ∧
    ∀ (rs1 rs2 : Reg) (imm : Word) (s : State), ∃ t, exec (.bge rs1 rs2 imm) s = .next t ∧ BranchFrame s t ∧
      ((s.reg rs2).toInt ≤ (s.reg rs1).toInt → t.pc = s.pc + imm ∧ takenBy (.bge rs1 rs2 imm) s = some true) ∧
      ((s.reg rs1).toInt < (s.reg rs2).toInt → t.pc = s.pc + 4 ∧ takenBy (.bge rs1 rs2 imm) s = some false)

/-- 46_jump.md R210; the encoding and the halt clause are the spec's decisions D6 and D4 (log entries 11, 9). -/
def Obligations.JalEffect : Prop :=
  RowDecodes 0x0000007F#32 0x0000006F#32 (fun w => .jal (w.extractLsb' 7 5) ((w.extractLsb' 31 1 ++ w.extractLsb' 12 8 ++ w.extractLsb' 20 1 ++ w.extractLsb' 21 10 ++ 0#1 : BitVec 21).signExtend 32)) ∧
    ∀ (rd : Reg) (imm : Word) (s : State), ∃ t, exec (.jal rd imm) s = .next t ∧ JumpFrame rd s t ∧
      (rd ≠ 0 → t.reg rd = s.pc + 4) ∧ t.pc.toNat = (s.pc.toNat + imm.toNat) % 2 ^ 32 ∧
      (t.pc = s.pc → t.status = .halted) ∧ (t.pc ≠ s.pc → t.status = s.status) ∧ takenBy (.jal rd imm) s = some true

/-- 46_jump.md R211; the encoding, the halt clause and the reading of the old rs1 are the spec's decisions D6, D4 and D13 (log entries 11, 9, 18). -/
def Obligations.JalrEffect : Prop :=
  RowDecodes 0x0000707F#32 0x00000067#32 (fun w => .jalr (w.extractLsb' 7 5) (w.extractLsb' 15 5) ((w.extractLsb' 20 12).signExtend 32)) ∧
    ∀ (rd rs1 : Reg) (imm : Word) (s : State), ∃ t, exec (.jalr rd rs1 imm) s = .next t ∧ JumpFrame rd s t ∧
      (rd ≠ 0 → t.reg rd = s.pc + 4) ∧ t.pc.toNat = ((s.reg rs1).toNat + imm.toNat) % 2 ^ 32 / 2 * 2 ∧
      (t.pc = s.pc → t.status = .halted) ∧ (t.pc ≠ s.pc → t.status = s.status) ∧
      takenBy (.jalr rd rs1 imm) s = some true

/-- 40_step_sequencer.md R120 to R123, with the byte order D1 (log entry 8). -/
def Obligations.StepRunsDecodedInstruction : Prop :=
  ∀ (s : State) (i : Instr), s.status = .running → s.pc.toNat % 4 = 0 → s.pc.toNat + 4 ≤ s.memSize →
    decode (s.mem.byteAt (s.pc.toNat + 3) ++ s.mem.byteAt (s.pc.toNat + 2) ++ s.mem.byteAt (s.pc.toNat + 1) ++
      s.mem.byteAt s.pc.toNat) = .instr i →
    step s = exec i s

/-- 40_step_sequencer.md R130, the spec's decision D5 (log entry 10). -/
def Obligations.TerminalStatusKeepsState : Prop :=
  ∀ s : State, s.status ≠ .running → step s = .next s ∧ s.retireEvent = none

/-- 20_memory.md R58, 60_exceptions.md R247; the order of the checks is the spec's decision D11 (log entry 16). -/
def Obligations.FetchErrors : Prop :=
  ∀ s : State, s.status = .running →
    (s.pc.toNat % 4 ≠ 0 →
      step s = .next { s with status := .error (.memoryError .misaligned s.pc) } ∧ s.retireEvent = none) ∧
    (s.pc.toNat % 4 = 0 → s.pc.toNat + 4 > s.memSize →
      step s = .next { s with status := .error (.memoryError .outOfBounds s.pc) } ∧ s.retireEvent = none)

/-- 60_exceptions.md R244: the five rows, and there is no other synchronous error. -/
def Obligations.ErrorsAreThoseOfTheTable : Prop :=
  ∀ s t : State, s.status = .running → step s = .next t →
    (∀ e : MachineError, t.status = .error e →
      (e = .memoryError .misaligned s.pc ∧ s.pc.toNat % 4 ≠ 0) ∨
      (e = .memoryError .outOfBounds s.pc ∧ s.pc.toNat + 4 > s.memSize) ∨
      (∃ w, s.fetch = .ok w ∧ decode w = .unsupported ∧ e = .decodeError w s.pc) ∨
      ∃ w i ea, s.fetch = .ok w ∧ decode w = .instr i ∧
        ((∃ rd rs1 imm, i = .lw rd rs1 imm ∧ ea = s.reg rs1 + imm) ∨ (∃ rs1 rs2 imm, i = .sw rs1 rs2 imm ∧ ea = s.reg rs1 + imm)) ∧
        ((e = .memoryError .misaligned ea ∧ ea.toNat % 4 ≠ 0) ∨ (e = .memoryError .outOfBounds ea ∧ ea.toNat + 4 > s.memSize))) ∧
    (s.pc.toNat % 4 ≠ 0 → t.failed) ∧ (s.pc.toNat + 4 > s.memSize → t.failed) ∧
    ∀ w : Word, s.fetch = .ok w →
      (decode w = .unsupported → t.failed) ∧
      (∀ (rd rs1 : Reg) (imm : Word), decode w = .instr (.lw rd rs1 imm) →
        (s.reg rs1 + imm).toNat % 4 ≠ 0 ∨ (s.reg rs1 + imm).toNat + 4 > s.memSize → t.failed) ∧
      ∀ (rs1 rs2 : Reg) (imm : Word), decode w = .instr (.sw rs1 rs2 imm) →
        (s.reg rs1 + imm).toNat % 4 ≠ 0 ∨ (s.reg rs1 + imm).toNat + 4 > s.memSize → t.failed

/-- 60_exceptions.md R246 and R248; that nothing else changes is the spec's decision D12 (log entry 17). -/
def Obligations.FailedStepChangesOnlyStatus : Prop :=
  ∀ (s t : State) (e : MachineError), s.status = .running → step s = .next t → t.status = .error e →
    t = { s with status := .error e } ∧ s.retireEvent = none ∧ step t = .next t

/-- 40_step_sequencer.md R134. MEM_SIZE is a fixed parameter of the session, over which the statement quantifies. -/
def Obligations.StepIsTotalFunction : Prop :=
  ∀ s : State, ∃ t, step s = .next t ∧ ∀ b : Word, step { s with base := b } = .next { t with base := b }

/-- 40_step_sequencer.md R128, R129, the spec's decision D4 (log entry 9). -/
def Obligations.HaltExactlyOnSelfJump : Prop :=
  ∀ s t : State, s.status = .running → step s = .next t →
    (t.status = .halted ↔ ∃ w i, s.fetch = .ok w ∧ decode w = .instr i ∧ (i.tag = .jal ∨ i.tag = .jalr) ∧ t.pc = s.pc)

/-- An invariant over every legal state, not only runs from reset: 10_state.md R21, R28 (bit 0 of pc), R34, R41. -/
def Obligations.StepKeepsLegalState : Prop :=
  ∀ s t : State, s.legal → step s = .next t → t.legal

/-- 70_reset_and_hazards.md R270, R271: the zeros are the spec's decision D14 (log entry 7). -/
def Obligations.ResetStateIsLegal : Prop :=
  State.reset.legal ∧ State.reset.status = .running ∧ State.reset.pc = State.reset.base ∧
    (∀ r, State.reset.reg r = 0) ∧ ∀ a, State.reset.mem.byteAt a = 0

/-- The host entry points of 40_step_sequencer.md R136; reset and load are the spec's decisions D14 and D19 (log entries 7, 20). -/
def Obligations.HostOperationsKeepLegalState : Prop :=
  (∀ s : State, s.legal → s.resetSession.legal) ∧
    (∀ (s t : State) (bytes : List Byte) (base : Word), s.legal → s.loadImage bytes base = some t → t.legal) ∧
    ∀ (image : List Byte) (base : Word) (memSize : Nat) (t : State), launchState image base memSize = some t → t.legal

/-- 10_state.md R28, the spec's decision D9 (log entry 14). -/
def Obligations.RetiringStepHasAlignedPc : Prop :=
  ∀ (s : State) (ev : RetireEvent), s.retireEvent = some ev → s.pc.toNat % 4 = 0 ∧ s.pc.toNat + 4 ≤ s.memSize

/-- 20_memory.md R52: no other instruction writes memory. -/
def Obligations.OnlyStoreChangesMemory : Prop :=
  ∀ (i : Instr) (s t : State), i.tag ≠ .sw → exec i s = .next t → SameMemory s t

/-- 10_state.md R27, R30. -/
def Obligations.OnlyControlTransfersRedirect : Prop :=
  ∀ (i : Instr) (s t : State), isControlTransfer i.tag = false → s.status = .running → exec i s = .next t →
    ¬ t.failed → t.pc = s.pc + 4

/-- 10_state.md R22: no register is used implicitly; 30_encoding.md R82: the S and B formats have no rd. -/
def Obligations.OnlyRdFieldIsWritten : Prop :=
  ∀ (w : Word) (i : Instr) (s t : State), decode w = .instr i → exec i s = .next t →
    SameRegsBut (w.extractLsb' 7 5) s t ∧ t.reg 0 = 0 ∧ (i.tag ∈ [.sw, .beq, .bne, .blt, .bge] → SameRegs s t)

/-- 10_state.md R21, R22. -/
def Obligations.RegisterZeroReadsZero : Prop :=
  ∀ (s : State) (r : Reg) (v : Word), s.reg 0 = 0 ∧ s.setReg 0 v = s ∧ (r ≠ 0 → (s.setReg r v).reg r = v) ∧
    SameRegsBut r s (s.setReg r v)

/-- 20_memory.md R54. -/
def Obligations.StoreThenLoadReturnsTheWord : Prop :=
  ∀ (s t : State) (a v : Word), s.writeWord a v = .ok t →
    t.readWord a = .ok v ∧
      ∀ b w : Word, b ≠ a → s.readWord b = .ok w →
        t.readWord b = .ok w ∧ (a.toNat + 4 ≤ b.toNat ∨ b.toNat + 4 ≤ a.toNat)

/-- 20_memory.md R66, which the spec marks as derived. -/
def Obligations.StoreIsSeenByTheNextFetch : Prop :=
  ∀ (rs1 rs2 : Reg) (imm : Word) (s : State), (s.reg rs1 + imm).toNat % 4 = 0 → (s.reg rs1 + imm).toNat + 4 ≤ s.memSize →
    ∃ t, exec (.sw rs1 rs2 imm) s = .next t ∧ (t.setPc (s.reg rs1 + imm)).fetch = .ok (s.reg rs2)

/-- 20_memory.md R63, which the spec marks as derived. -/
def Obligations.EmptyMemoryRaisesDecodeError : Prop :=
  ∀ s : State, s.status = .running → s.pc.toNat % 4 = 0 → s.pc.toNat + 4 ≤ s.memSize →
    (∀ k, k < 4 → s.mem.byteAt (s.pc.toNat + k) = 0) →
    step s = .next { s with status := .error (.decodeError 0 s.pc) }

/-- 70_reset_and_hazards.md R270, the spec's decision D14 (log entry 7). -/
def Obligations.ResetSessionEffect : Prop :=
  (∀ s : State, (∀ r, s.resetSession.reg r = 0) ∧ (∀ a, s.resetSession.mem.byteAt a = 0) ∧ s.resetSession.pc = s.base ∧
      s.resetSession.status = .running ∧ SameParameters s s.resetSession) ∧
    ∀ s u : State, SameParameters s u → s.resetSession = u.resetSession

/-- 20_memory.md R60, with the spec's decision D19 (log entry 20). -/
def Obligations.LoadImageEffect : Prop :=
  ∀ (s : State) (bytes : List Byte) (base : Word),
    (s.loadImage bytes base = none ↔ base.toNat % 4 ≠ 0 ∨ base.toNat + bytes.length > s.memSize) ∧
    ∀ t, s.loadImage bytes base = some t →
      (∀ (k : Nat) (h : k < bytes.length), t.mem.byteAt (base.toNat + k) = bytes[k]) ∧
      (∀ a, (a < base.toNat ∨ base.toNat + bytes.length ≤ a) → t.mem.byteAt a = s.mem.byteAt a) ∧
      t.base = base ∧ t.pc = base ∧ SameRegs s t ∧ t.status = s.status ∧ t.memSize = s.memSize

/-- 70_reset_and_hazards.md R272 and 10_state.md R41, with the spec's decisions D14, D19 (log entries 7, 20). -/
def Obligations.LaunchStateContents : Prop :=
  ∀ (image : List Byte) (base : Word) (memSize : Nat),
    ((∃ t, launchState image base memSize = some t) ↔
      memSize % 4 = 0 ∧ 4 ≤ memSize ∧ memSize ≤ 2 ^ 32 ∧ base.toNat % 4 = 0 ∧ base.toNat + image.length ≤ memSize) ∧
    ∀ t, launchState image base memSize = some t →
      (∀ r, t.reg r = 0) ∧ (∀ (k : Nat) (h : k < image.length), t.mem.byteAt (base.toNat + k) = image[k]) ∧
      (∀ a, (a < base.toNat ∨ base.toNat + image.length ≤ a) → t.mem.byteAt a = 0) ∧
      t.pc = base ∧ t.base = base ∧ t.memSize = memSize ∧ t.status = .running

/-- 40_step_sequencer.md R131, with the spec's decision D16 (log entry 19). -/
def Obligations.RetireEventExactlyWhenCompleted : Prop :=
  (∀ (s t : State) (ev : RetireEvent), s.status = .running → step s = .next t →
      (s.retireEvent = some ev ↔
        ¬ t.failed ∧ ∃ w i, s.fetch = .ok w ∧ decode w = .instr i ∧ ev = { tag := i.tag, taken := takenBy i s })) ∧
    ∀ (i : Instr) (s : State), (isControlTransfer i.tag = false → takenBy i s = none) ∧
      (isJump i.tag = true → takenBy i s = some true) ∧ (isControlTransfer i.tag = true → (takenBy i s).isSome = true)

/-- 40_step_sequencer.md R132, R133; that the steps of an ended run keep the state is the spec's decision D5 (log entry 10). -/
def Obligations.RunsCompose : Prop :=
  ∀ (n m : Nat) (s : State), run 0 s = s ∧ retireCount 0 s = 0 ∧ step (run n s) = .next (run (n + 1) s) ∧
    (∀ ev, (run n s).retireEvent = some ev → retireCount (n + 1) s = retireCount n s + 1) ∧
    ((run n s).retireEvent = none → retireCount (n + 1) s = retireCount n s) ∧
    run (n + m) s = run m (run n s) ∧ retireCount (n + m) s = retireCount n s + retireCount m (run n s)

/-- 40_step_sequencer.md R133, R135, with the spec's decision D5 (log entry 10). -/
def Obligations.EndedRunStays : Prop :=
  ∀ (n k : Nat) (s : State), (run n s).status ≠ .running →
    run (n + k) s = run n s ∧ retireCount (n + k) s = retireCount n s

/-- 40_step_sequencer.md R136 and 30_encoding.md R101; the error conditions are the model's choice (log entry 22), the byte order the spec's decision D1 (log entry 8). -/
def Obligations.InspectionReadsMemory : Prop :=
  (∀ (s : State) (a n : Nat), (s.inspectBytes a n = none ↔ a + n > s.memSize) ∧
      ∀ l, s.inspectBytes a n = some l → l.length = n ∧ ∀ (k : Nat) (h : k < l.length), l[k] = s.mem.byteAt (a + k)) ∧
    ∀ (s : State) (addr : Word) (n : Nat),
      (s.disassembleForward addr n = none ↔ addr.toNat % 4 ≠ 0 ∨ addr.toNat + 4 * n > s.memSize) ∧
      ∀ l, s.disassembleForward addr n = some l → l.length = n ∧ ∀ (k : Nat) (h : k < l.length),
        l[k].addr = addr.toNat + 4 * k ∧
        l[k].word = s.mem.byteAt (l[k].addr + 3) ++ s.mem.byteAt (l[k].addr + 2) ++ s.mem.byteAt (l[k].addr + 1) ++
          s.mem.byteAt l[k].addr ∧
        l[k].decoded = decode l[k].word

/-- 40_step_sequencer.md R136, with the spec's decisions D5 and D19 (log entries 10, 20). -/
def Obligations.HostCommandsKeepTheSession : Prop :=
  ∀ (s : State) (c : HostCommand),
    (∀ t, s.legal → s.command c = some t → t.legal) ∧
    (s.command c = none → ∃ bytes base, c = .load bytes base) ∧
    (s.status ≠ .running → c ≠ .reset → ∀ t, s.command c = some t → t.status = s.status ∧ SameRegs s t ∧
      ((∃ bytes base, c = .load bytes base) ∨ t = s))
end

