-- ==== Sys2Proof/Laws/Encoding.lean ====
section
/-! SUPPORT. The formats and their fields: what a field function reads from an encoded word, how the fields of a word
make it up again, the immediates at the values their formats carry, and what a row's mask says about the fields. -/

namespace Sys2Proof

/-! Pieces of a concatenation. -/

theorem extract_low {m n k : Nat} (a : BitVec m) (b : BitVec n) (s : Nat) (h : s + k ≤ n) :
    (a ++ b).extractLsb' s k = b.extractLsb' s k := by
  apply BitVec.eq_of_getLsbD_eq
  intro i hi
  simp only [BitVec.getLsbD_extractLsb', BitVec.getLsbD_append]
  simp [hi, show s + i < n by omega]

theorem extract_high {m n k : Nat} (a : BitVec m) (b : BitVec n) (s : Nat) (h : n ≤ s) :
    (a ++ b).extractLsb' s k = a.extractLsb' (s - n) k := by
  apply BitVec.eq_of_getLsbD_eq
  intro i hi
  simp only [BitVec.getLsbD_extractLsb', BitVec.getLsbD_append]
  simp [hi, show ¬ s + i < n by omega, show s + i - n = s - n + i by omega]

theorem extract_self {n : Nat} (a : BitVec n) (s : Nat) (h : s = 0) : a.extractLsb' s n = a := by
  subst h
  apply BitVec.eq_of_getLsbD_eq
  intro i hi
  simp [hi]

/-- Two neighbouring pieces of a word are one piece. -/
theorem extract_join {n m k : Nat} (a : BitVec n) (s t : Nat) (h : t = s + k) :
    a.extractLsb' t m ++ a.extractLsb' s k = a.extractLsb' s (m + k) := by
  subst h
  apply BitVec.eq_of_getLsbD_eq
  intro i hi
  simp only [BitVec.getLsbD_extractLsb', BitVec.getLsbD_append]
  by_cases hk : i < k
  · simp [hk, hi]
  · simp [hk, hi, show i - k < m by omega, show s + k + (i - k) = s + i by omega]

/-- A piece of a piece. -/
theorem extract_extract {n : Nat} (a : BitVec n) (s k t m : Nat) (h : t + m ≤ k) :
    (a.extractLsb' s k).extractLsb' t m = a.extractLsb' (s + t) m := by
  apply BitVec.eq_of_getLsbD_eq
  intro i hi
  simp [hi, show t + i < k by omega, Nat.add_assoc]

/-- Sign extension keeps the pieces it starts from. -/
theorem extract_signExtend {n v : Nat} (a : BitVec n) (s k : Nat) (h : s + k ≤ n) (hv : n ≤ v) :
    (a.signExtend v).extractLsb' s k = a.extractLsb' s k := by
  apply BitVec.eq_of_getLsbD_eq
  intro i hi
  simp only [BitVec.getLsbD_extractLsb', BitVec.getLsbD_signExtend]
  simp [hi, show s + i < n by omega, show s + i < v by omega]

variable (f7 : BitVec 7) (rs2 rs1 rd : BitVec 5) (f3 : BitVec 3) (op : BitVec 7) (imm w : Word)

/-! Fields read from the formats. -/

@[simp] theorem opcodeField_encodeR : opcodeField (encodeR f7 rs2 rs1 f3 rd op) = op := by
  simp only [opcodeField, encodeR]
  rw [extract_low (h := by decide), extract_self (h := by decide)]

@[simp] theorem rdField_encodeR : rdField (encodeR f7 rs2 rs1 f3 rd op) = rd := by
  simp only [rdField, encodeR]
  rw [extract_high (h := by decide), extract_low (h := by decide), extract_self (h := by decide)]

@[simp] theorem funct3Field_encodeR : funct3Field (encodeR f7 rs2 rs1 f3 rd op) = f3 := by
  simp only [funct3Field, encodeR]
  rw [extract_high (h := by decide), extract_high (h := by decide), extract_low (h := by decide), extract_self (h := by decide)]

@[simp] theorem rs1Field_encodeR : rs1Field (encodeR f7 rs2 rs1 f3 rd op) = rs1 := by
  simp only [rs1Field, encodeR]
  rw [extract_high (h := by decide), extract_high (h := by decide), extract_high (h := by decide), extract_low (h := by decide), extract_self (h := by decide)]

@[simp] theorem rs2Field_encodeR : rs2Field (encodeR f7 rs2 rs1 f3 rd op) = rs2 := by
  simp only [rs2Field, encodeR]
  rw [extract_high (h := by decide), extract_high (h := by decide), extract_high (h := by decide), extract_high (h := by decide), extract_low (h := by decide), extract_self (h := by decide)]

@[simp] theorem funct7Field_encodeR : funct7Field (encodeR f7 rs2 rs1 f3 rd op) = f7 := by
  simp only [funct7Field, encodeR]
  rw [extract_high (h := by decide), extract_high (h := by decide), extract_high (h := by decide), extract_high (h := by decide), extract_high (h := by decide), extract_self (h := by decide)]

@[simp] theorem opcodeField_encodeI : opcodeField (encodeI imm rs1 f3 rd op) = op := by
  simp only [opcodeField, encodeI]
  rw [extract_low (h := by decide), extract_self (h := by decide)]

@[simp] theorem rdField_encodeI : rdField (encodeI imm rs1 f3 rd op) = rd := by
  simp only [rdField, encodeI]
  rw [extract_high (h := by decide), extract_low (h := by decide), extract_self (h := by decide)]

@[simp] theorem funct3Field_encodeI : funct3Field (encodeI imm rs1 f3 rd op) = f3 := by
  simp only [funct3Field, encodeI]
  rw [extract_high (h := by decide), extract_high (h := by decide), extract_low (h := by decide), extract_self (h := by decide)]

@[simp] theorem rs1Field_encodeI : rs1Field (encodeI imm rs1 f3 rd op) = rs1 := by
  simp only [rs1Field, encodeI]
  rw [extract_high (h := by decide), extract_high (h := by decide), extract_high (h := by decide), extract_low (h := by decide), extract_self (h := by decide)]

@[simp] theorem opcodeField_encodeS : opcodeField (encodeS imm rs2 rs1 f3 op) = op := by
  simp only [opcodeField, encodeS]
  rw [extract_low (h := by decide), extract_self (h := by decide)]

@[simp] theorem funct3Field_encodeS : funct3Field (encodeS imm rs2 rs1 f3 op) = f3 := by
  simp only [funct3Field, encodeS]
  rw [extract_high (h := by decide), extract_high (h := by decide), extract_low (h := by decide), extract_self (h := by decide)]

@[simp] theorem rs1Field_encodeS : rs1Field (encodeS imm rs2 rs1 f3 op) = rs1 := by
  simp only [rs1Field, encodeS]
  rw [extract_high (h := by decide), extract_high (h := by decide), extract_high (h := by decide), extract_low (h := by decide), extract_self (h := by decide)]

@[simp] theorem rs2Field_encodeS : rs2Field (encodeS imm rs2 rs1 f3 op) = rs2 := by
  simp only [rs2Field, encodeS]
  rw [extract_high (h := by decide), extract_high (h := by decide), extract_high (h := by decide), extract_high (h := by decide), extract_low (h := by decide), extract_self (h := by decide)]

@[simp] theorem opcodeField_encodeB : opcodeField (encodeB imm rs2 rs1 f3 op) = op := by
  simp only [opcodeField, encodeB]
  rw [extract_low (h := by decide), extract_self (h := by decide)]

@[simp] theorem funct3Field_encodeB : funct3Field (encodeB imm rs2 rs1 f3 op) = f3 := by
  simp only [funct3Field, encodeB]
  rw [extract_high (h := by decide), extract_high (h := by decide), extract_high (h := by decide), extract_low (h := by decide), extract_self (h := by decide)]

@[simp] theorem rs1Field_encodeB : rs1Field (encodeB imm rs2 rs1 f3 op) = rs1 := by
  simp only [rs1Field, encodeB]
  rw [extract_high (h := by decide), extract_high (h := by decide), extract_high (h := by decide), extract_high (h := by decide), extract_low (h := by decide), extract_self (h := by decide)]

@[simp] theorem rs2Field_encodeB : rs2Field (encodeB imm rs2 rs1 f3 op) = rs2 := by
  simp only [rs2Field, encodeB]
  rw [extract_high (h := by decide), extract_high (h := by decide), extract_high (h := by decide), extract_high (h := by decide), extract_high (h := by decide), extract_low (h := by decide), extract_self (h := by decide)]

@[simp] theorem opcodeField_encodeU : opcodeField (encodeU imm rd op) = op := by
  simp only [opcodeField, encodeU]
  rw [extract_low (h := by decide), extract_self (h := by decide)]

@[simp] theorem rdField_encodeU : rdField (encodeU imm rd op) = rd := by
  simp only [rdField, encodeU]
  rw [extract_high (h := by decide), extract_low (h := by decide), extract_self (h := by decide)]

@[simp] theorem opcodeField_encodeJ : opcodeField (encodeJ imm rd op) = op := by
  simp only [opcodeField, encodeJ]
  rw [extract_low (h := by decide), extract_self (h := by decide)]

@[simp] theorem rdField_encodeJ : rdField (encodeJ imm rd op) = rd := by
  simp only [rdField, encodeJ]
  rw [extract_high (h := by decide), extract_low (h := by decide), extract_self (h := by decide)]

/-- R85: the shift amount stands where `rs2` does. -/
@[simp] theorem shamtField_encodeR : shamtField (encodeR f7 rs2 rs1 f3 rd op) = rs2 := by
  simp only [shamtField, encodeR]
  rw [extract_high (h := by decide), extract_high (h := by decide), extract_high (h := by decide), extract_high (h := by decide), extract_low (h := by decide), extract_self (h := by decide)]

/-! Immediates read from the formats. -/

theorem piece20_encodeI : (encodeI imm rs1 f3 rd op).extractLsb' 20 12 = imm.extractLsb' 0 12 := by
  simp only [encodeI]
  rw [extract_high (h := by decide), extract_high (h := by decide), extract_high (h := by decide), extract_high (h := by decide), extract_self (h := by decide)]

theorem piece7_encodeS : (encodeS imm rs2 rs1 f3 op).extractLsb' 7 5 = imm.extractLsb' 0 5 := by
  simp only [encodeS]
  rw [extract_high (h := by decide), extract_low (h := by decide), extract_self (h := by decide)]

theorem piece25_encodeS : (encodeS imm rs2 rs1 f3 op).extractLsb' 25 7 = imm.extractLsb' 5 7 := by
  simp only [encodeS]
  rw [extract_high (h := by decide), extract_high (h := by decide), extract_high (h := by decide), extract_high (h := by decide), extract_high (h := by decide), extract_self (h := by decide)]

theorem piece7_encodeB : (encodeB imm rs2 rs1 f3 op).extractLsb' 7 1 = imm.extractLsb' 11 1 := by
  simp only [encodeB]
  rw [extract_high (h := by decide), extract_low (h := by decide), extract_self (h := by decide)]

theorem piece8_encodeB : (encodeB imm rs2 rs1 f3 op).extractLsb' 8 4 = imm.extractLsb' 1 4 := by
  simp only [encodeB]
  rw [extract_high (h := by decide), extract_high (h := by decide), extract_low (h := by decide), extract_self (h := by decide)]

theorem piece25_encodeB : (encodeB imm rs2 rs1 f3 op).extractLsb' 25 6 = imm.extractLsb' 5 6 := by
  simp only [encodeB]
  rw [extract_high (h := by decide), extract_high (h := by decide), extract_high (h := by decide), extract_high (h := by decide), extract_high (h := by decide), extract_high (h := by decide), extract_low (h := by decide), extract_self (h := by decide)]

theorem piece31_encodeB : (encodeB imm rs2 rs1 f3 op).extractLsb' 31 1 = imm.extractLsb' 12 1 := by
  simp only [encodeB]
  rw [extract_high (h := by decide), extract_high (h := by decide), extract_high (h := by decide), extract_high (h := by decide), extract_high (h := by decide), extract_high (h := by decide), extract_high (h := by decide), extract_self (h := by decide)]

theorem piece12_encodeU : (encodeU imm rd op).extractLsb' 12 20 = imm.extractLsb' 12 20 := by
  simp only [encodeU]
  rw [extract_high (h := by decide), extract_high (h := by decide), extract_self (h := by decide)]

theorem piece12_encodeJ : (encodeJ imm rd op).extractLsb' 12 8 = imm.extractLsb' 12 8 := by
  simp only [encodeJ]
  rw [extract_high (h := by decide), extract_high (h := by decide), extract_low (h := by decide), extract_self (h := by decide)]

theorem piece20_encodeJ : (encodeJ imm rd op).extractLsb' 20 1 = imm.extractLsb' 11 1 := by
  simp only [encodeJ]
  rw [extract_high (h := by decide), extract_high (h := by decide), extract_high (h := by decide), extract_low (h := by decide), extract_self (h := by decide)]

theorem piece21_encodeJ : (encodeJ imm rd op).extractLsb' 21 10 = imm.extractLsb' 1 10 := by
  simp only [encodeJ]
  rw [extract_high (h := by decide), extract_high (h := by decide), extract_high (h := by decide), extract_high (h := by decide), extract_low (h := by decide), extract_self (h := by decide)]

theorem piece31_encodeJ : (encodeJ imm rd op).extractLsb' 31 1 = imm.extractLsb' 20 1 := by
  simp only [encodeJ]
  rw [extract_high (h := by decide), extract_high (h := by decide), extract_high (h := by decide), extract_high (h := by decide), extract_high (h := by decide), extract_self (h := by decide)]

/-! An immediate in the range of its format is what its low bits extend to. -/

theorem toInt_extract_low (n : Nat) (hn : n ≤ 32) : (imm.extractLsb' 0 n).toInt = imm.toInt.bmod (2 ^ n) := by
  rw [BitVec.toInt_eq_toNat_bmod, BitVec.toInt_eq_toNat_bmod, BitVec.extractLsb'_toNat, Nat.shiftRight_zero]
  rw [Int.bmod_bmod_of_dvd (by exact_mod_cast Nat.pow_dvd_pow 2 hn)]
  rw [Int.natCast_emod, Int.emod_bmod]

theorem signExtend_extract_low (n : Nat) (hn : n ≤ 32) (h : imm.toInt.bmod (2 ^ n) = imm.toInt) :
    (imm.extractLsb' 0 n).signExtend 32 = imm := by
  apply BitVec.eq_of_toInt_eq
  rw [BitVec.toInt_signExtend_of_le hn, toInt_extract_low imm n hn, h]

theorem extend12 (h : imm12InRange imm = true) : (imm.extractLsb' 0 12).signExtend 32 = imm := by
  simp only [imm12InRange, decide_eq_true_eq] at h
  exact signExtend_extract_low imm 12 (by decide) (by simp only [Int.bmod]; omega)

theorem low_bit_zero (h : imm.toInt % 2 = 0) : imm.extractLsb' 0 1 = 0#1 := by
  have h2 : imm.toNat % 2 = 0 := by rw [BitVec.toInt_eq_toNat_cond] at h; split at h <;> omega
  apply BitVec.eq_of_toNat_eq
  simpa [BitVec.extractLsb'_toNat] using h2

@[simp] theorem immI_encodeI (h : imm12InRange imm = true) : immI (encodeI imm rs1 f3 rd op) = imm := by
  rw [immI, piece20_encodeI, extend12 imm h]

@[simp] theorem immS_encodeS (h : imm12InRange imm = true) : immS (encodeS imm rs2 rs1 f3 op) = imm := by
  rw [immS, piece25_encodeS, piece7_encodeS, extract_join _ _ _ (by decide), extend12 imm h]

@[simp] theorem immB_encodeB (h : immBInRange imm = true) : immB (encodeB imm rs2 rs1 f3 op) = imm := by
  simp only [immBInRange, decide_eq_true_eq] at h
  rw [immB, piece31_encodeB, piece7_encodeB, piece25_encodeB, piece8_encodeB, ← low_bit_zero imm h.2.2,
    extract_join _ _ _ (by decide), extract_join _ _ _ (by decide), extract_join _ _ _ (by decide),
    extract_join _ _ _ (by decide)]
  exact signExtend_extract_low imm 13 (by decide) (by simp only [Int.bmod]; omega)

@[simp] theorem immJ_encodeJ (h : immJInRange imm = true) : immJ (encodeJ imm rd op) = imm := by
  simp only [immJInRange, decide_eq_true_eq] at h
  rw [immJ, piece31_encodeJ, piece12_encodeJ, piece20_encodeJ, piece21_encodeJ, ← low_bit_zero imm h.2.2,
    extract_join _ _ _ (by decide), extract_join _ _ _ (by decide), extract_join _ _ _ (by decide),
    extract_join _ _ _ (by decide)]
  exact signExtend_extract_low imm 21 (by decide) (by simp only [Int.bmod]; omega)

theorem low12_zero (h : immUInRange imm = true) : imm.extractLsb' 0 12 = 0#12 := by
  simp only [immUInRange, decide_eq_true_eq] at h
  apply BitVec.eq_of_toNat_eq
  simpa [BitVec.extractLsb'_toNat] using h

@[simp] theorem immU_encodeU (h : immUInRange imm = true) : immU (encodeU imm rd op) = imm := by
  rw [immU, piece12_encodeU, ← low12_zero imm h, extract_join _ _ _ (by decide), extract_self (h := rfl)]

/-! The immediates a word holds are in range. -/

theorem imm12InRange_signExtend (a : BitVec 12) : imm12InRange (a.signExtend 32) = true := by
  simp only [imm12InRange, decide_eq_true_eq]
  rw [BitVec.toInt_signExtend_of_le (by decide)]
  have h1 := BitVec.le_toInt a
  have h2 := BitVec.toInt_lt (x := a)
  simp at h1 h2
  omega

theorem even_append_zero {n : Nat} (a : BitVec n) : (a ++ 0#1).toInt % 2 = 0 := by
  have h : (a ++ 0#1).toNat = a.toNat * 2 := by
    rw [BitVec.toNat_append, Nat.shiftLeft_eq]
    simp
  have h3 : (2 ^ (n + 1) : Nat) = 2 * 2 ^ n := by rw [Nat.pow_succ, Nat.mul_comm]
  rw [BitVec.toInt_eq_toNat_cond, h]
  split <;> omega

theorem immBInRange_signExtend (a : BitVec 12) : immBInRange ((a ++ 0#1 : BitVec 13).signExtend 32) = true := by
  simp only [immBInRange, decide_eq_true_eq]
  rw [BitVec.toInt_signExtend_of_le (by decide)]
  have h0 := even_append_zero a
  have h1 := BitVec.le_toInt (a ++ 0#1 : BitVec 13)
  have h2 := BitVec.toInt_lt (x := (a ++ 0#1 : BitVec 13))
  generalize (a ++ 0#1 : BitVec 13).toInt = z at *
  simp at h1 h2
  omega

theorem immJInRange_signExtend (a : BitVec 20) : immJInRange ((a ++ 0#1 : BitVec 21).signExtend 32) = true := by
  simp only [immJInRange, decide_eq_true_eq]
  rw [BitVec.toInt_signExtend_of_le (by decide)]
  have h0 := even_append_zero a
  have h1 := BitVec.le_toInt (a ++ 0#1 : BitVec 21)
  have h2 := BitVec.toInt_lt (x := (a ++ 0#1 : BitVec 21))
  generalize (a ++ 0#1 : BitVec 21).toInt = z at *
  simp at h1 h2
  omega

@[simp] theorem immI_inRange : imm12InRange (immI w) = true := imm12InRange_signExtend _
@[simp] theorem immS_inRange : imm12InRange (immS w) = true := imm12InRange_signExtend _
@[simp] theorem immB_inRange : immBInRange (immB w) = true := immBInRange_signExtend _
@[simp] theorem immJ_inRange : immJInRange (immJ w) = true := immJInRange_signExtend _

@[simp] theorem immU_inRange : immUInRange (immU w) = true := by
  have h : (w.extractLsb' 12 20 ++ 0#12).toNat = (w.extractLsb' 12 20).toNat * 4096 := by
    rw [BitVec.toNat_append, Nat.shiftLeft_eq]
    simp
  unfold immUInRange immU
  rw [decide_eq_true_eq, h]
  omega

/-! A word is made up of its fields again. -/

theorem encodeR_fields : encodeR (funct7Field w) (rs2Field w) (rs1Field w) (funct3Field w) (rdField w) (opcodeField w) = w := by
  simp only [encodeR, funct7Field, rs2Field, rs1Field, funct3Field, rdField, opcodeField]
  rw [extract_join _ _ _ (by decide), extract_join _ _ _ (by decide), extract_join _ _ _ (by decide),
    extract_join _ _ _ (by decide), extract_join _ _ _ (by decide), extract_self (h := rfl)]

theorem encodeI_fields : encodeI (immI w) (rs1Field w) (funct3Field w) (rdField w) (opcodeField w) = w := by
  simp only [encodeI, immI, rs1Field, funct3Field, rdField, opcodeField]
  rw [extract_signExtend (h := by decide) (hv := by decide), extract_self (h := rfl), extract_join _ _ _ (by decide),
    extract_join _ _ _ (by decide), extract_join _ _ _ (by decide), extract_join _ _ _ (by decide), extract_self (h := rfl)]

theorem encodeS_fields : encodeS (immS w) (rs2Field w) (rs1Field w) (funct3Field w) (opcodeField w) = w := by
  simp only [encodeS, immS, rs2Field, rs1Field, funct3Field, opcodeField]
  rw [extract_signExtend (h := by decide) (hv := by decide), extract_signExtend (h := by decide) (hv := by decide),
    extract_high (h := by decide), extract_self (h := by decide), extract_low (h := by decide), extract_self (h := rfl),
    extract_join _ _ _ (by decide), extract_join _ _ _ (by decide), extract_join _ _ _ (by decide),
    extract_join _ _ _ (by decide), extract_join _ _ _ (by decide), extract_self (h := rfl)]

theorem encodeU_fields : encodeU (immU w) (rdField w) (opcodeField w) = w := by
  simp only [encodeU, immU, rdField, opcodeField]
  rw [extract_high (h := by decide), extract_self (h := by decide), extract_join _ _ _ (by decide),
    extract_join _ _ _ (by decide), extract_self (h := rfl)]

theorem encodeB_fields : encodeB (immB w) (rs2Field w) (rs1Field w) (funct3Field w) (opcodeField w) = w := by
  have h12 : (immB w).extractLsb' 12 1 = w.extractLsb' 31 1 := by
    rw [immB, extract_signExtend (h := by decide) (hv := by decide), extract_high (h := by decide), extract_high (h := by decide),
      extract_high (h := by decide), extract_high (h := by decide), extract_self (h := by decide)]
  have h5 : (immB w).extractLsb' 5 6 = w.extractLsb' 25 6 := by
    rw [immB, extract_signExtend (h := by decide) (hv := by decide), extract_high (h := by decide), extract_high (h := by decide),
      extract_low (h := by decide), extract_self (h := by decide)]
  have h1 : (immB w).extractLsb' 1 4 = w.extractLsb' 8 4 := by
    rw [immB, extract_signExtend (h := by decide) (hv := by decide), extract_high (h := by decide), extract_low (h := by decide),
      extract_self (h := by decide)]
  have h11 : (immB w).extractLsb' 11 1 = w.extractLsb' 7 1 := by
    rw [immB, extract_signExtend (h := by decide) (hv := by decide), extract_high (h := by decide), extract_high (h := by decide),
      extract_high (h := by decide), extract_low (h := by decide), extract_self (h := by decide)]
  simp only [encodeB, h12, h5, h1, h11, rs2Field, rs1Field, funct3Field, opcodeField]
  rw [extract_join _ _ _ (by decide), extract_join _ _ _ (by decide), extract_join _ _ _ (by decide),
    extract_join _ _ _ (by decide), extract_join _ _ _ (by decide), extract_join _ _ _ (by decide),
    extract_join _ _ _ (by decide), extract_self (h := rfl)]

theorem encodeJ_fields : encodeJ (immJ w) (rdField w) (opcodeField w) = w := by
  have h20 : (immJ w).extractLsb' 20 1 = w.extractLsb' 31 1 := by
    rw [immJ, extract_signExtend (h := by decide) (hv := by decide), extract_high (h := by decide), extract_high (h := by decide),
      extract_high (h := by decide), extract_high (h := by decide), extract_self (h := by decide)]
  have h1 : (immJ w).extractLsb' 1 10 = w.extractLsb' 21 10 := by
    rw [immJ, extract_signExtend (h := by decide) (hv := by decide), extract_high (h := by decide), extract_low (h := by decide),
      extract_self (h := by decide)]
  have h11 : (immJ w).extractLsb' 11 1 = w.extractLsb' 20 1 := by
    rw [immJ, extract_signExtend (h := by decide) (hv := by decide), extract_high (h := by decide), extract_high (h := by decide),
      extract_low (h := by decide), extract_self (h := by decide)]
  have h12 : (immJ w).extractLsb' 12 8 = w.extractLsb' 12 8 := by
    rw [immJ, extract_signExtend (h := by decide) (hv := by decide), extract_high (h := by decide), extract_high (h := by decide),
      extract_high (h := by decide), extract_low (h := by decide), extract_self (h := by decide)]
  simp only [encodeJ, h20, h1, h11, h12, rdField, opcodeField]
  rw [extract_join _ _ _ (by decide), extract_join _ _ _ (by decide), extract_join _ _ _ (by decide),
    extract_join _ _ _ (by decide), extract_join _ _ _ (by decide), extract_self (h := rfl)]

/-! What a match under a row's mask says about the fields (R99). -/

theorem extract_of_mask {s k : Nat} {mask pattern : Word} (h : w &&& mask = pattern)
    (hm : mask.extractLsb' s k = BitVec.allOnes k) : w.extractLsb' s k = pattern.extractLsb' s k := by
  rw [← h, BitVec.extractLsb'_and, hm, BitVec.and_allOnes]

theorem fields_of_mask7 {pattern : Word} (h : w &&& 0x0000007F#32 = pattern) : opcodeField w = opcodeField pattern :=
  extract_of_mask w h (by decide)

theorem fields_of_mask3 {pattern : Word} (h : w &&& 0x0000707F#32 = pattern) :
    opcodeField w = opcodeField pattern ∧ funct3Field w = funct3Field pattern :=
  ⟨extract_of_mask w h (by decide), extract_of_mask w h (by decide)⟩

theorem fields_of_mask73 {pattern : Word} (h : w &&& 0xFE00707F#32 = pattern) :
    opcodeField w = opcodeField pattern ∧ funct3Field w = funct3Field pattern ∧ funct7Field w = funct7Field pattern :=
  ⟨extract_of_mask w h (by decide), extract_of_mask w h (by decide), extract_of_mask w h (by decide)⟩

end Sys2Proof
end

