-- ==== Sys2Proof/Laws/Decode.lean ====
section
/-! SUPPORT. The decode function said once: which words decode to which instruction (30_encoding.md R97), for proofs to
take apart by cases instead of unfolding the decoder. -/

namespace Sys2Proof

/-- The word `w` is selected by a row of R97, and the instruction is the one that row reads from it. -/
inductive Selects (w : Word) : Instr → Prop where
  | add (op : opcodeField w = 0b0110011#7) (f7 : funct7Field w = 0b0000000#7) (f3 : funct3Field w = 0b000#3) : Selects w (.add (rdField w) (rs1Field w) (rs2Field w))
  | sub (op : opcodeField w = 0b0110011#7) (f7 : funct7Field w = 0b0100000#7) (f3 : funct3Field w = 0b000#3) : Selects w (.sub (rdField w) (rs1Field w) (rs2Field w))
  | sll (op : opcodeField w = 0b0110011#7) (f7 : funct7Field w = 0b0000000#7) (f3 : funct3Field w = 0b001#3) : Selects w (.sll (rdField w) (rs1Field w) (rs2Field w))
  | xor (op : opcodeField w = 0b0110011#7) (f7 : funct7Field w = 0b0000000#7) (f3 : funct3Field w = 0b100#3) : Selects w (.xor (rdField w) (rs1Field w) (rs2Field w))
  | srl (op : opcodeField w = 0b0110011#7) (f7 : funct7Field w = 0b0000000#7) (f3 : funct3Field w = 0b101#3) : Selects w (.srl (rdField w) (rs1Field w) (rs2Field w))
  | sra (op : opcodeField w = 0b0110011#7) (f7 : funct7Field w = 0b0100000#7) (f3 : funct3Field w = 0b101#3) : Selects w (.sra (rdField w) (rs1Field w) (rs2Field w))
  | or (op : opcodeField w = 0b0110011#7) (f7 : funct7Field w = 0b0000000#7) (f3 : funct3Field w = 0b110#3) : Selects w (.or (rdField w) (rs1Field w) (rs2Field w))
  | and (op : opcodeField w = 0b0110011#7) (f7 : funct7Field w = 0b0000000#7) (f3 : funct3Field w = 0b111#3) : Selects w (.and (rdField w) (rs1Field w) (rs2Field w))
  | addi (op : opcodeField w = 0b0010011#7) (f3 : funct3Field w = 0b000#3) : Selects w (.addi (rdField w) (rs1Field w) (immI w))
  | xori (op : opcodeField w = 0b0010011#7) (f3 : funct3Field w = 0b100#3) : Selects w (.xori (rdField w) (rs1Field w) (immI w))
  | ori (op : opcodeField w = 0b0010011#7) (f3 : funct3Field w = 0b110#3) : Selects w (.ori (rdField w) (rs1Field w) (immI w))
  | andi (op : opcodeField w = 0b0010011#7) (f3 : funct3Field w = 0b111#3) : Selects w (.andi (rdField w) (rs1Field w) (immI w))
  | slli (op : opcodeField w = 0b0010011#7) (f7 : funct7Field w = 0b0000000#7) (f3 : funct3Field w = 0b001#3) : Selects w (.slli (rdField w) (rs1Field w) (shamtField w))
  | srli (op : opcodeField w = 0b0010011#7) (f7 : funct7Field w = 0b0000000#7) (f3 : funct3Field w = 0b101#3) : Selects w (.srli (rdField w) (rs1Field w) (shamtField w))
  | srai (op : opcodeField w = 0b0010011#7) (f7 : funct7Field w = 0b0100000#7) (f3 : funct3Field w = 0b101#3) : Selects w (.srai (rdField w) (rs1Field w) (shamtField w))
  | lw (op : opcodeField w = 0b0000011#7) (f3 : funct3Field w = 0b010#3) : Selects w (.lw (rdField w) (rs1Field w) (immI w))
  | sw (op : opcodeField w = 0b0100011#7) (f3 : funct3Field w = 0b010#3) : Selects w (.sw (rs1Field w) (rs2Field w) (immS w))
  | beq (op : opcodeField w = 0b1100011#7) (f3 : funct3Field w = 0b000#3) : Selects w (.beq (rs1Field w) (rs2Field w) (immB w))
  | bne (op : opcodeField w = 0b1100011#7) (f3 : funct3Field w = 0b001#3) : Selects w (.bne (rs1Field w) (rs2Field w) (immB w))
  | blt (op : opcodeField w = 0b1100011#7) (f3 : funct3Field w = 0b100#3) : Selects w (.blt (rs1Field w) (rs2Field w) (immB w))
  | bge (op : opcodeField w = 0b1100011#7) (f3 : funct3Field w = 0b101#3) : Selects w (.bge (rs1Field w) (rs2Field w) (immB w))
  | lui (op : opcodeField w = 0b0110111#7) : Selects w (.lui (rdField w) (immU w))
  | auipc (op : opcodeField w = 0b0010111#7) : Selects w (.auipc (rdField w) (immU w))
  | jal (op : opcodeField w = 0b1101111#7) : Selects w (.jal (rdField w) (immJ w))
  | jalr (op : opcodeField w = 0b1100111#7) (f3 : funct3Field w = 0b000#3) : Selects w (.jalr (rdField w) (rs1Field w) (immI w))

variable {w : Word} {i : Instr}

/-- The decoder answers an instruction exactly when a row selects it. -/
theorem decode_eq_instr : decode w = .instr i ↔ Selects w i := by
  constructor
  · intro h
    unfold decode decodeOp decodeOpImm decodeLoad decodeStore decodeBranch decodeJalr at h
    repeat' split at h
    all_goals cases h
    all_goals (constructor <;> first | assumption | exact And.left ‹_› | exact And.right ‹_›)
  · intro h
    cases h <;> simp [decode, decodeOp, decodeOpImm, decodeLoad, decodeStore, decodeBranch, decodeJalr, *]

/-- A decoded instruction is well-formed: its immediate is in the range of its format (30_encoding.md R90 to R95). -/
theorem Selects.wf (h : Selects w i) : i.wf = true := by
  cases h <;> simp [Instr.wf]

/-- Two words with the same six fields are the same word. -/
theorem eq_of_fields {v w : Word} (h7 : funct7Field v = funct7Field w) (h2 : rs2Field v = rs2Field w)
    (h1 : rs1Field v = rs1Field w) (h3 : funct3Field v = funct3Field w) (hd : rdField v = rdField w)
    (ho : opcodeField v = opcodeField w) : v = w := by
  rw [← encodeR_fields v, ← encodeR_fields w, h7, h2, h1, h3, hd, ho]

theorem extract_mask_ones {w mask pattern : Word} {s k : Nat} (hm : mask.extractLsb' s k = BitVec.allOnes k)
    (hw : w.extractLsb' s k = pattern.extractLsb' s k) : (w &&& mask).extractLsb' s k = pattern.extractLsb' s k := by
  rw [BitVec.extractLsb'_and, hm, BitVec.and_allOnes, hw]

theorem extract_mask_zeros {w mask pattern : Word} {s k : Nat} (hm : mask.extractLsb' s k = 0#k)
    (hp : pattern.extractLsb' s k = 0#k) : (w &&& mask).extractLsb' s k = pattern.extractLsb' s k := by
  rw [BitVec.extractLsb'_and, hm, BitVec.and_zero, hp]

theorem mask73_of_fields (w pattern : Word) (ho : opcodeField w = opcodeField pattern)
    (h3 : funct3Field w = funct3Field pattern) (h7 : funct7Field w = funct7Field pattern)
    (p2 : rs2Field pattern = 0#5) (p1 : rs1Field pattern = 0#5) (pd : rdField pattern = 0#5) :
    w &&& 0xFE00707F#32 = pattern :=
  eq_of_fields (extract_mask_ones (by decide) h7) (extract_mask_zeros (by decide) p2) (extract_mask_zeros (by decide) p1)
    (extract_mask_ones (by decide) h3) (extract_mask_zeros (by decide) pd) (extract_mask_ones (by decide) ho)

theorem mask3_of_fields (w pattern : Word) (ho : opcodeField w = opcodeField pattern)
    (h3 : funct3Field w = funct3Field pattern) (p7 : funct7Field pattern = 0#7)
    (p2 : rs2Field pattern = 0#5) (p1 : rs1Field pattern = 0#5) (pd : rdField pattern = 0#5) :
    w &&& 0x0000707F#32 = pattern :=
  eq_of_fields (extract_mask_zeros (by decide) p7) (extract_mask_zeros (by decide) p2) (extract_mask_zeros (by decide) p1)
    (extract_mask_ones (by decide) h3) (extract_mask_zeros (by decide) pd) (extract_mask_ones (by decide) ho)

theorem mask7_of_fields (w pattern : Word) (ho : opcodeField w = opcodeField pattern)
    (p3 : funct3Field pattern = 0#3) (p7 : funct7Field pattern = 0#7)
    (p2 : rs2Field pattern = 0#5) (p1 : rs1Field pattern = 0#5) (pd : rdField pattern = 0#5) :
    w &&& 0x0000007F#32 = pattern :=
  eq_of_fields (extract_mask_zeros (by decide) p7) (extract_mask_zeros (by decide) p2) (extract_mask_zeros (by decide) p1)
    (extract_mask_zeros (by decide) p3) (extract_mask_zeros (by decide) pd) (extract_mask_ones (by decide) ho)

/-- A selected word agrees with its row of the table under the row's mask (R99). -/
theorem Selects.mask (h : Selects w i) : w &&& i.tag.mask = i.tag.pattern := by
  cases h
  case add op f7 f3 =>
    exact mask73_of_fields w 0x00000033#32 (op.trans (by decide)) (f3.trans (by decide)) (f7.trans (by decide)) (by decide) (by decide) (by decide)
  case sub op f7 f3 =>
    exact mask73_of_fields w 0x40000033#32 (op.trans (by decide)) (f3.trans (by decide)) (f7.trans (by decide)) (by decide) (by decide) (by decide)
  case sll op f7 f3 =>
    exact mask73_of_fields w 0x00001033#32 (op.trans (by decide)) (f3.trans (by decide)) (f7.trans (by decide)) (by decide) (by decide) (by decide)
  case xor op f7 f3 =>
    exact mask73_of_fields w 0x00004033#32 (op.trans (by decide)) (f3.trans (by decide)) (f7.trans (by decide)) (by decide) (by decide) (by decide)
  case srl op f7 f3 =>
    exact mask73_of_fields w 0x00005033#32 (op.trans (by decide)) (f3.trans (by decide)) (f7.trans (by decide)) (by decide) (by decide) (by decide)
  case sra op f7 f3 =>
    exact mask73_of_fields w 0x40005033#32 (op.trans (by decide)) (f3.trans (by decide)) (f7.trans (by decide)) (by decide) (by decide) (by decide)
  case or op f7 f3 =>
    exact mask73_of_fields w 0x00006033#32 (op.trans (by decide)) (f3.trans (by decide)) (f7.trans (by decide)) (by decide) (by decide) (by decide)
  case and op f7 f3 =>
    exact mask73_of_fields w 0x00007033#32 (op.trans (by decide)) (f3.trans (by decide)) (f7.trans (by decide)) (by decide) (by decide) (by decide)
  case addi op f3 => exact mask3_of_fields w 0x00000013#32 (op.trans (by decide)) (f3.trans (by decide)) (by decide) (by decide) (by decide) (by decide)
  case xori op f3 => exact mask3_of_fields w 0x00004013#32 (op.trans (by decide)) (f3.trans (by decide)) (by decide) (by decide) (by decide) (by decide)
  case ori op f3 => exact mask3_of_fields w 0x00006013#32 (op.trans (by decide)) (f3.trans (by decide)) (by decide) (by decide) (by decide) (by decide)
  case andi op f3 => exact mask3_of_fields w 0x00007013#32 (op.trans (by decide)) (f3.trans (by decide)) (by decide) (by decide) (by decide) (by decide)
  case slli op f7 f3 =>
    exact mask73_of_fields w 0x00001013#32 (op.trans (by decide)) (f3.trans (by decide)) (f7.trans (by decide)) (by decide) (by decide) (by decide)
  case srli op f7 f3 =>
    exact mask73_of_fields w 0x00005013#32 (op.trans (by decide)) (f3.trans (by decide)) (f7.trans (by decide)) (by decide) (by decide) (by decide)
  case srai op f7 f3 =>
    exact mask73_of_fields w 0x40005013#32 (op.trans (by decide)) (f3.trans (by decide)) (f7.trans (by decide)) (by decide) (by decide) (by decide)
  case lw op f3 => exact mask3_of_fields w 0x00002003#32 (op.trans (by decide)) (f3.trans (by decide)) (by decide) (by decide) (by decide) (by decide)
  case sw op f3 => exact mask3_of_fields w 0x00002023#32 (op.trans (by decide)) (f3.trans (by decide)) (by decide) (by decide) (by decide) (by decide)
  case beq op f3 => exact mask3_of_fields w 0x00000063#32 (op.trans (by decide)) (f3.trans (by decide)) (by decide) (by decide) (by decide) (by decide)
  case bne op f3 => exact mask3_of_fields w 0x00001063#32 (op.trans (by decide)) (f3.trans (by decide)) (by decide) (by decide) (by decide) (by decide)
  case blt op f3 => exact mask3_of_fields w 0x00004063#32 (op.trans (by decide)) (f3.trans (by decide)) (by decide) (by decide) (by decide) (by decide)
  case bge op f3 => exact mask3_of_fields w 0x00005063#32 (op.trans (by decide)) (f3.trans (by decide)) (by decide) (by decide) (by decide) (by decide)
  case lui op => exact mask7_of_fields w 0x00000037#32 (op.trans (by decide)) (by decide) (by decide) (by decide) (by decide) (by decide)
  case auipc op => exact mask7_of_fields w 0x00000017#32 (op.trans (by decide)) (by decide) (by decide) (by decide) (by decide) (by decide)
  case jal op => exact mask7_of_fields w 0x0000006F#32 (op.trans (by decide)) (by decide) (by decide) (by decide) (by decide) (by decide)
  case jalr op f3 => exact mask3_of_fields w 0x00000067#32 (op.trans (by decide)) (f3.trans (by decide)) (by decide) (by decide) (by decide) (by decide)

/-- A word that agrees with a row of the table under its mask is selected by that row (R99). -/
theorem selects_of_mask (t : Tag) (h : w &&& t.mask = t.pattern) : ∃ i, Selects w i ∧ i.tag = t := by
  cases t
  case add =>
    obtain ⟨h1, h2, h3⟩ := fields_of_mask73 w h
    exact ⟨_, .add (h1.trans (by decide)) (h3.trans (by decide)) (h2.trans (by decide)), rfl⟩
  case sub =>
    obtain ⟨h1, h2, h3⟩ := fields_of_mask73 w h
    exact ⟨_, .sub (h1.trans (by decide)) (h3.trans (by decide)) (h2.trans (by decide)), rfl⟩
  case sll =>
    obtain ⟨h1, h2, h3⟩ := fields_of_mask73 w h
    exact ⟨_, .sll (h1.trans (by decide)) (h3.trans (by decide)) (h2.trans (by decide)), rfl⟩
  case xor =>
    obtain ⟨h1, h2, h3⟩ := fields_of_mask73 w h
    exact ⟨_, .xor (h1.trans (by decide)) (h3.trans (by decide)) (h2.trans (by decide)), rfl⟩
  case srl =>
    obtain ⟨h1, h2, h3⟩ := fields_of_mask73 w h
    exact ⟨_, .srl (h1.trans (by decide)) (h3.trans (by decide)) (h2.trans (by decide)), rfl⟩
  case sra =>
    obtain ⟨h1, h2, h3⟩ := fields_of_mask73 w h
    exact ⟨_, .sra (h1.trans (by decide)) (h3.trans (by decide)) (h2.trans (by decide)), rfl⟩
  case or =>
    obtain ⟨h1, h2, h3⟩ := fields_of_mask73 w h
    exact ⟨_, .or (h1.trans (by decide)) (h3.trans (by decide)) (h2.trans (by decide)), rfl⟩
  case and =>
    obtain ⟨h1, h2, h3⟩ := fields_of_mask73 w h
    exact ⟨_, .and (h1.trans (by decide)) (h3.trans (by decide)) (h2.trans (by decide)), rfl⟩
  case addi =>
    obtain ⟨h1, h2⟩ := fields_of_mask3 w h
    exact ⟨_, .addi (h1.trans (by decide)) (h2.trans (by decide)), rfl⟩
  case xori =>
    obtain ⟨h1, h2⟩ := fields_of_mask3 w h
    exact ⟨_, .xori (h1.trans (by decide)) (h2.trans (by decide)), rfl⟩
  case ori =>
    obtain ⟨h1, h2⟩ := fields_of_mask3 w h
    exact ⟨_, .ori (h1.trans (by decide)) (h2.trans (by decide)), rfl⟩
  case andi =>
    obtain ⟨h1, h2⟩ := fields_of_mask3 w h
    exact ⟨_, .andi (h1.trans (by decide)) (h2.trans (by decide)), rfl⟩
  case slli =>
    obtain ⟨h1, h2, h3⟩ := fields_of_mask73 w h
    exact ⟨_, .slli (h1.trans (by decide)) (h3.trans (by decide)) (h2.trans (by decide)), rfl⟩
  case srli =>
    obtain ⟨h1, h2, h3⟩ := fields_of_mask73 w h
    exact ⟨_, .srli (h1.trans (by decide)) (h3.trans (by decide)) (h2.trans (by decide)), rfl⟩
  case srai =>
    obtain ⟨h1, h2, h3⟩ := fields_of_mask73 w h
    exact ⟨_, .srai (h1.trans (by decide)) (h3.trans (by decide)) (h2.trans (by decide)), rfl⟩
  case lw =>
    obtain ⟨h1, h2⟩ := fields_of_mask3 w h
    exact ⟨_, .lw (h1.trans (by decide)) (h2.trans (by decide)), rfl⟩
  case sw =>
    obtain ⟨h1, h2⟩ := fields_of_mask3 w h
    exact ⟨_, .sw (h1.trans (by decide)) (h2.trans (by decide)), rfl⟩
  case beq =>
    obtain ⟨h1, h2⟩ := fields_of_mask3 w h
    exact ⟨_, .beq (h1.trans (by decide)) (h2.trans (by decide)), rfl⟩
  case bne =>
    obtain ⟨h1, h2⟩ := fields_of_mask3 w h
    exact ⟨_, .bne (h1.trans (by decide)) (h2.trans (by decide)), rfl⟩
  case blt =>
    obtain ⟨h1, h2⟩ := fields_of_mask3 w h
    exact ⟨_, .blt (h1.trans (by decide)) (h2.trans (by decide)), rfl⟩
  case bge =>
    obtain ⟨h1, h2⟩ := fields_of_mask3 w h
    exact ⟨_, .bge (h1.trans (by decide)) (h2.trans (by decide)), rfl⟩
  case lui => exact ⟨_, .lui ((fields_of_mask7 w h).trans (by decide)), rfl⟩
  case auipc => exact ⟨_, .auipc ((fields_of_mask7 w h).trans (by decide)), rfl⟩
  case jal => exact ⟨_, .jal ((fields_of_mask7 w h).trans (by decide)), rfl⟩
  case jalr =>
    obtain ⟨h1, h2⟩ := fields_of_mask3 w h
    exact ⟨_, .jalr (h1.trans (by decide)) (h2.trans (by decide)), rfl⟩

/-- Two rows of the table never select the same word (R99). -/
theorem Selects.unique {j : Instr} (h : Selects w i) (h' : Selects w j) : i = j :=
  Decoded.instr.inj ((decode_eq_instr.2 h).symm.trans (decode_eq_instr.2 h'))

end Sys2Proof
end

