-- ==== Sys2Proof/Laws/Memory.lean ====
section
/-! SUPPORT. The memory operations: a read after a write, the frame of a write, and the canonical form, which every
operation keeps and in which equal memories are equal lists. -/

namespace Sys2Proof.Machine

/-! Bytes. -/

theorem byteAt_erase (m : Memory) (a b : Nat) :
    (m.erase a).byteAt b = if b = a then Config.fillByte else m.byteAt b := by
  induction m with
  | nil => simp [Memory.erase, Memory.byteAt]
  | cons c rest ih =>
    obtain ⟨d, v⟩ := c
    simp only [Memory.erase, Memory.byteAt]
    split
    · subst d; rw [ih]; split
      · rfl
      · rw [if_neg (Ne.symm ‹_›)]
    · simp only [Memory.byteAt, ih]
      split
      · subst d; rw [if_neg ‹_›]
      · rfl

theorem byteAt_insert (m : Memory) (a : Nat) (v : Byte) (hm : ∀ c ∈ m, c.1 ≠ a) (b : Nat) :
    (m.insert a v).byteAt b = if b = a then v else m.byteAt b := by
  induction m with
  | nil => simp [Memory.insert, Memory.byteAt, eq_comm]
  | cons c rest ih =>
    obtain ⟨d, u⟩ := c
    have hd : d ≠ a := hm (d, u) (by simp)
    simp only [Memory.insert]
    split
    · simp only [Memory.byteAt]
      by_cases hb : b = a
      · subst hb; simp
      · simp [hb, Ne.symm hb]
    · simp only [Memory.byteAt, ih fun c hc => hm c (by simp [hc])]
      by_cases hb : b = a
      · subst hb; simp [hd]
      · simp [hb]

theorem erase_keys (m : Memory) (a : Nat) : ∀ c ∈ m.erase a, c.1 ≠ a ∧ c ∈ m := by
  induction m with
  | nil => simp [Memory.erase]
  | cons c rest ih =>
    obtain ⟨d, v⟩ := c
    intro c hc
    simp only [Memory.erase] at hc
    split at hc
    · exact ⟨(ih c hc).1, by simp [(ih c hc).2]⟩
    · rcases List.mem_cons.1 hc with rfl | hc
      · exact ⟨‹_›, by simp⟩
      · exact ⟨(ih c hc).1, by simp [(ih c hc).2]⟩

/-- A byte write is read back, and every other byte is as before. -/
theorem byteAt_setByte (m : Memory) (a b : Nat) (v : Byte) :
    (m.setByte a v).byteAt b = if b = a then v else m.byteAt b := by
  unfold Memory.setByte
  split
  · rw [byteAt_erase]; split <;> simp_all
  · rw [byteAt_insert _ _ _ fun c hc => (erase_keys m a c hc).1, byteAt_erase]
    split <;> simp_all

/-- A run of byte writes, read at any address. -/
theorem byteAt_setBytes (bytes : List Byte) (m : Memory) (a b : Nat) :
    (m.setBytes a bytes).byteAt b = if h : a ≤ b ∧ b < a + bytes.length then bytes[b - a]'(by omega) else m.byteAt b := by
  induction bytes generalizing m a with
  | nil => simp [Memory.setBytes]
  | cons v rest ih =>
    simp only [Memory.setBytes, ih, byteAt_setByte, List.length_cons]
    by_cases hb : b = a
    · subst hb; simp
    · by_cases h : a + 1 ≤ b ∧ b < a + 1 + rest.length
      · have h' : a ≤ b ∧ b < a + (rest.length + 1) := by omega
        have e : b - a = (b - (a + 1)) + 1 := by omega
        simp [h, h', e]
      · have h' : ¬(a ≤ b ∧ b < a + (rest.length + 1)) := by omega
        rw [dif_neg h, dif_neg h', if_neg hb]

/-! Words. -/

theorem wordOfBytes_wordByte (w : Word) :
    wordOfBytes (wordByte w 0) (wordByte w 1) (wordByte w 2) (wordByte w 3) = w := by
  apply BitVec.eq_of_getLsbD_eq
  intro i hi
  simp only [wordOfBytes, wordByte, BitVec.getLsbD_append, BitVec.getLsbD_extractLsb']
  rcases Nat.lt_or_ge i 8 with h | h
  · simp [h]
  · rcases Nat.lt_or_ge i 16 with h2 | h2
    · have : i - 8 < 8 := by omega
      simp [Nat.not_lt.2 h, this, show 8 + (i - 8) = i by omega]
    · rcases Nat.lt_or_ge i 24 with h3 | h3
      · simp [Nat.not_lt.2 h, show ¬ i - 8 < 8 by omega, show i - 8 - 8 < 8 by omega, show 16 + (i - 8 - 8) = i by omega]
      · simp [Nat.not_lt.2 h, show ¬ i - 8 < 8 by omega, show ¬ i - 8 - 8 < 8 by omega, show i - 8 - 8 - 8 < 8 by omega,
          show 24 + (i - 8 - 8 - 8) = i by omega]

/-- A word write, byte by byte (20_memory.md R56). -/
theorem byteAt_setWord (m : Memory) (a b : Nat) (v : Word) :
    (m.setWord a v).byteAt b = if a ≤ b ∧ b < a + 4 then wordByte v (b - a) else m.byteAt b := by
  rw [Memory.setWord, byteAt_setBytes]
  by_cases h : a ≤ b ∧ b < a + 4
  · have hl : a ≤ b ∧ b < a + (bytesOfWord v).length := by simpa [bytesOfWord] using h
    rw [dif_pos hl, if_pos h]
    obtain ⟨k, rfl⟩ := Nat.exists_eq_add_of_le h.1
    have hk : k < 4 := by omega
    simp only [Nat.add_sub_cancel_left]
    interval_cases k <;> rfl
  · have hl : ¬(a ≤ b ∧ b < a + (bytesOfWord v).length) := by simpa [bytesOfWord] using h
    rw [dif_neg hl, if_neg h]

/-- A word written is the word read back. -/
theorem wordAt_setWord_self (m : Memory) (a : Nat) (v : Word) : (m.setWord a v).wordAt a = v := by
  simp only [Memory.wordAt, byteAt_setWord]
  simp [wordOfBytes_wordByte]

/-- A word write leaves a disjoint word alone. -/
theorem wordAt_setWord_of_disjoint (m : Memory) (a b : Nat) (v : Word) (h : a + 4 ≤ b ∨ b + 4 ≤ a) :
    (m.setWord a v).wordAt b = m.wordAt b := by
  simp only [Memory.wordAt, byteAt_setWord]
  rw [if_neg (by omega), if_neg (by omega), if_neg (by omega), if_neg (by omega)]

/-! The canonical form. -/

theorem canonicalFrom_mono {m : Memory} {lo hi : Nat} (h : m.canonicalFrom hi = true) (hle : lo ≤ hi) :
    m.canonicalFrom lo = true := by
  cases m with
  | nil => rfl
  | cons c rest =>
    obtain ⟨a, v⟩ := c
    simp only [Memory.canonicalFrom, Bool.and_eq_true, decide_eq_true_eq] at h ⊢
    exact ⟨⟨by omega, h.1.2⟩, h.2⟩

theorem canonicalFrom_erase {m : Memory} {lo : Nat} (h : m.canonicalFrom lo = true) (a : Nat) :
    (m.erase a).canonicalFrom lo = true := by
  induction m generalizing lo with
  | nil => rfl
  | cons c rest ih =>
    obtain ⟨b, v⟩ := c
    simp only [Memory.canonicalFrom, Bool.and_eq_true, decide_eq_true_eq] at h
    simp only [Memory.erase]
    split
    · exact canonicalFrom_mono (ih h.2) (by omega)
    · simp only [Memory.canonicalFrom, Bool.and_eq_true, decide_eq_true_eq]
      exact ⟨h.1, ih h.2⟩

theorem canonicalFrom_insert {m : Memory} {lo a : Nat} {v : Byte} (h : m.canonicalFrom lo = true) (hlo : lo ≤ a)
    (hv : v ≠ Config.fillByte) (hm : ∀ c ∈ m, c.1 ≠ a) : (m.insert a v).canonicalFrom lo = true := by
  induction m generalizing lo with
  | nil => simp [Memory.insert, Memory.canonicalFrom, hlo, hv]
  | cons c rest ih =>
    obtain ⟨b, u⟩ := c
    have hb : b ≠ a := hm (b, u) (by simp)
    simp only [Memory.canonicalFrom, Bool.and_eq_true, decide_eq_true_eq] at h
    simp only [Memory.insert]
    split
    · simp only [Memory.canonicalFrom, Bool.and_eq_true, decide_eq_true_eq]
      exact ⟨⟨hlo, hv⟩, ⟨by omega, h.1.2⟩, h.2⟩
    · simp only [Memory.canonicalFrom, Bool.and_eq_true, decide_eq_true_eq]
      exact ⟨h.1, ih h.2 (by omega) fun c hc => hm c (by simp [hc])⟩

/-- A byte write keeps the canonical form. -/
theorem wf_setByte {m : Memory} (h : m.wf = true) (a : Nat) (v : Byte) : (m.setByte a v).wf = true := by
  unfold Memory.setByte
  split
  · exact canonicalFrom_erase h a
  · exact canonicalFrom_insert (canonicalFrom_erase h a) (Nat.zero_le a) ‹_› fun c hc => (erase_keys m a c hc).1

/-- So does a run of byte writes. -/
theorem wf_setBytes (bytes : List Byte) {m : Memory} (h : m.wf = true) (a : Nat) : (m.setBytes a bytes).wf = true := by
  induction bytes generalizing m a with
  | nil => exact h
  | cons v rest ih => exact ih (wf_setByte h a v) (a + 1)

/-- So does a word write. -/
theorem wf_setWord {m : Memory} (h : m.wf = true) (a : Nat) (v : Word) : (m.setWord a v).wf = true :=
  wf_setBytes _ h a

theorem mem_insert {m : Memory} {a : Nat} {v : Byte} {c : Host.Cell} (hc : c ∈ m.insert a v) : c = (a, v) ∨ c ∈ m := by
  induction m with
  | nil => simpa [Memory.insert] using hc
  | cons d rest ih =>
    obtain ⟨b, u⟩ := d
    simp only [Memory.insert] at hc
    split at hc
    · simpa using hc
    · rcases List.mem_cons.1 hc with rfl | hc
      · simp
      · rcases ih hc with rfl | h <;> simp_all

theorem within_setByte {m : Memory} {n : Nat} (h : m.within n = true) {a : Nat} (ha : a < n) (v : Byte) :
    (m.setByte a v).within n = true := by
  simp only [Memory.within, List.all_eq_true, decide_eq_true_eq] at h ⊢
  intro c hc
  unfold Memory.setByte at hc
  split at hc
  · exact h c (erase_keys m a c hc).2
  · rcases mem_insert hc with rfl | hc
    · exact ha
    · exact h c (erase_keys m a c hc).2

/-- Writes below the size keep the listed addresses below it. -/
theorem within_setBytes (bytes : List Byte) {m : Memory} {n : Nat} (h : m.within n = true) {a : Nat}
    (ha : a + bytes.length ≤ n) : (m.setBytes a bytes).within n = true := by
  induction bytes generalizing m a with
  | nil => exact h
  | cons v rest ih =>
    simp only [List.length_cons] at ha
    exact ih (within_setByte h (by omega) v) (by omega)

theorem within_setWord {m : Memory} {n : Nat} (h : m.within n = true) {a : Nat} (ha : a + 4 ≤ n) (v : Word) :
    (m.setWord a v).within n = true :=
  within_setBytes (bytesOfWord v) h (by simpa [bytesOfWord] using ha)

theorem byteAt_of_lt_canonicalFrom {m : Memory} {lo a : Nat} (h : m.canonicalFrom lo = true) (ha : a < lo) :
    m.byteAt a = Config.fillByte := by
  induction m generalizing lo with
  | nil => rfl
  | cons c rest ih =>
    obtain ⟨b, v⟩ := c
    simp only [Memory.canonicalFrom, Bool.and_eq_true, decide_eq_true_eq] at h
    simp only [Memory.byteAt]
    rw [if_neg (by omega), ih h.2 (by omega)]

theorem eq_of_byteAt_eq_from {m n : Memory} {lo : Nat} (hm : m.canonicalFrom lo = true) (hn : n.canonicalFrom lo = true)
    (h : ∀ a, m.byteAt a = n.byteAt a) : m = n := by
  induction m generalizing n lo with
  | nil =>
    cases n with
    | nil => rfl
    | cons c rest =>
      obtain ⟨b, v⟩ := c
      simp only [Memory.canonicalFrom, Bool.and_eq_true, decide_eq_true_eq] at hn
      have := h b
      simp [Memory.byteAt] at this
      exact absurd this.symm hn.1.2
  | cons c rest ih =>
    obtain ⟨a, u⟩ := c
    simp only [Memory.canonicalFrom, Bool.and_eq_true, decide_eq_true_eq] at hm
    cases n with
    | nil =>
      have := h a
      simp [Memory.byteAt] at this
      exact absurd this hm.1.2
    | cons d rest' =>
      obtain ⟨b, v⟩ := d
      simp only [Memory.canonicalFrom, Bool.and_eq_true, decide_eq_true_eq] at hn
      have hab : a = b := by
        rcases Nat.lt_trichotomy a b with hlt | heq | hgt
        · have := h a
          simp only [Memory.byteAt, if_true, if_neg (Nat.ne_of_gt hlt)] at this
          rw [byteAt_of_lt_canonicalFrom hn.2 (by omega)] at this
          exact absurd this hm.1.2
        · exact heq
        · have := h b
          simp only [Memory.byteAt, if_true, if_neg (Nat.ne_of_gt hgt)] at this
          rw [byteAt_of_lt_canonicalFrom hm.2 (by omega)] at this
          exact absurd this.symm hn.1.2
      subst hab
      have huv : u = v := by simpa [Memory.byteAt] using h a
      subst huv
      have hr : rest = rest' := by
        refine ih hm.2 hn.2 fun k => ?_
        by_cases hk : k = a
        · subst hk
          rw [byteAt_of_lt_canonicalFrom hm.2 (by omega), byteAt_of_lt_canonicalFrom hn.2 (by omega)]
        · simpa [Memory.byteAt, Ne.symm hk] using h k
      rw [hr]

/-- Two memories in canonical form that read alike are the same list. -/
theorem eq_of_byteAt_eq {m n : Memory} (hm : m.wf = true) (hn : n.wf = true) (h : ∀ a, m.byteAt a = n.byteAt a) : m = n :=
  eq_of_byteAt_eq_from hm hn h

end Sys2Proof.Machine
end

