-- ==== Sys2Proof/Laws/State.lean ====
section
/-! SUPPORT. One lemma per field per update of State, true by unfolding, so that no later proof unfolds a record update. -/

namespace Sys2Proof.Machine

variable (s : State) (r rd : Reg) (v t : Word) (e : MachineError)

@[simp] theorem setPc_x : (s.setPc t).x = s.x := rfl
@[simp] theorem setPc_pc : (s.setPc t).pc = t := rfl
@[simp] theorem setPc_mem : (s.setPc t).mem = s.mem := rfl
@[simp] theorem setPc_status : (s.setPc t).status = s.status := rfl
@[simp] theorem setPc_memSize : (s.setPc t).memSize = s.memSize := rfl
@[simp] theorem setPc_base : (s.setPc t).base = s.base := rfl
@[simp] theorem setPc_reg : (s.setPc t).reg r = s.reg r := rfl

@[simp] theorem advance_x : s.advance.x = s.x := rfl
@[simp] theorem advance_pc : s.advance.pc = s.pc + 4 := rfl
@[simp] theorem advance_mem : s.advance.mem = s.mem := rfl
@[simp] theorem advance_status : s.advance.status = s.status := rfl
@[simp] theorem advance_memSize : s.advance.memSize = s.memSize := rfl
@[simp] theorem advance_base : s.advance.base = s.base := rfl
@[simp] theorem advance_reg : s.advance.reg r = s.reg r := rfl

@[simp] theorem raise_x : (s.raise e).x = s.x := rfl
@[simp] theorem raise_pc : (s.raise e).pc = s.pc := rfl
@[simp] theorem raise_mem : (s.raise e).mem = s.mem := rfl
@[simp] theorem raise_status : (s.raise e).status = .error e := rfl
@[simp] theorem raise_memSize : (s.raise e).memSize = s.memSize := rfl
@[simp] theorem raise_base : (s.raise e).base = s.base := rfl
@[simp] theorem raise_reg : (s.raise e).reg r = s.reg r := rfl

@[simp] theorem halt_x : s.halt.x = s.x := rfl
@[simp] theorem halt_pc : s.halt.pc = s.pc := rfl
@[simp] theorem halt_mem : s.halt.mem = s.mem := rfl
@[simp] theorem halt_status : s.halt.status = .halted := rfl
@[simp] theorem halt_memSize : s.halt.memSize = s.memSize := rfl
@[simp] theorem halt_base : s.halt.base = s.base := rfl
@[simp] theorem halt_reg : s.halt.reg r = s.reg r := rfl

@[simp] theorem setReg_pc : (s.setReg rd v).pc = s.pc := by unfold State.setReg; split <;> rfl
@[simp] theorem setReg_mem : (s.setReg rd v).mem = s.mem := by unfold State.setReg; split <;> rfl
@[simp] theorem setReg_status : (s.setReg rd v).status = s.status := by unfold State.setReg; split <;> rfl
@[simp] theorem setReg_memSize : (s.setReg rd v).memSize = s.memSize := by unfold State.setReg; split <;> rfl
@[simp] theorem setReg_base : (s.setReg rd v).base = s.base := by unfold State.setReg; split <;> rfl

/-- `x0` reads as 0 in every state. -/
@[simp] theorem reg_zero : s.reg 0#5 = 0#32 := rfl

/-- A write to `x0` is discarded. -/
@[simp] theorem setReg_zero : s.setReg 0#5 v = s := rfl

theorem setReg_reg_self (h : rd ≠ 0) : (s.setReg rd v).reg rd = v := by
  unfold State.setReg State.reg
  rw [if_neg h, if_neg h]
  simp

theorem setReg_reg_of_ne (h : r ≠ rd) : (s.setReg rd v).reg r = s.reg r := by
  have hne : rd.toNat ≠ r.toNat := fun e => h (BitVec.eq_of_toNat_eq e.symm)
  unfold State.setReg State.reg
  split
  · rfl
  · split
    · rfl
    · simp [hne]

/-- The slot of `x0` is never written. -/
@[simp] theorem setReg_slot_zero : (s.setReg rd v).x[0] = s.x[0] := by
  unfold State.setReg
  split
  · rfl
  · rename_i h
    have hne : rd.toNat ≠ 0 := fun e => h (BitVec.eq_of_toNat_eq (by simpa using e))
    simp [hne]

end Sys2Proof.Machine
end

