-- ==== Sys2Proof/Laws/Ops.lean ====
section
/-! SUPPORT. One specification per shared operation: what it can do, said once, for proofs to cite. -/

namespace Sys2Proof.Machine

variable {s t : State} {addr v w : Word} {e : MachineError} {i : Instr}

/-! Word accesses (20_memory.md R55, R56). -/

theorem accessError_eq_none : s.accessError addr = none ↔ addr.toNat % 4 = 0 ∧ addr.toNat + 4 ≤ s.memSize := by
  unfold State.accessError
  split
  · simp; omega
  · split
    · simp; omega
    · simp; omega

theorem accessError_of_misaligned (h : addr.toNat % 4 ≠ 0) : s.accessError addr = some (.memoryError .misaligned addr) := by
  simp [State.accessError, h]

theorem accessError_of_outOfBounds (h : addr.toNat % 4 = 0) (hb : addr.toNat + 4 > s.memSize) :
    s.accessError addr = some (.memoryError .outOfBounds addr) := by
  simp [State.accessError, h, hb]

/-- An access error is one of the two, with its cause. -/
theorem accessError_cases (h : s.accessError addr = some e) :
    (addr.toNat % 4 ≠ 0 ∧ e = .memoryError .misaligned addr) ∨
      (addr.toNat % 4 = 0 ∧ addr.toNat + 4 > s.memSize ∧ e = .memoryError .outOfBounds addr) := by
  unfold State.accessError at h
  split at h
  · exact .inl ⟨‹_›, by simpa using h.symm⟩
  · split at h
    · exact .inr ⟨by omega, ‹_›, by simpa using h.symm⟩
    · cases h

theorem readWord_eq_ok :
    s.readWord addr = .ok v ↔ addr.toNat % 4 = 0 ∧ addr.toNat + 4 ≤ s.memSize ∧ v = s.mem.wordAt addr.toNat := by
  rw [← and_assoc, ← accessError_eq_none, State.readWord]
  cases s.accessError addr <;> simp [eq_comm]

theorem readWord_eq_error : s.readWord addr = .error e ↔ s.accessError addr = some e := by
  rw [State.readWord]
  cases s.accessError addr <;> simp

theorem writeWord_eq_ok :
    s.writeWord addr v = .ok t ↔
      addr.toNat % 4 = 0 ∧ addr.toNat + 4 ≤ s.memSize ∧ t = { s with mem := s.mem.setWord addr.toNat v } := by
  rw [← and_assoc, ← accessError_eq_none, State.writeWord]
  cases s.accessError addr <;> simp [eq_comm]

theorem writeWord_eq_error : s.writeWord addr v = .error e ↔ s.accessError addr = some e := by
  rw [State.writeWord]
  cases s.accessError addr <;> simp

theorem fetch_eq_ok :
    s.fetch = .ok w ↔ s.pc.toNat % 4 = 0 ∧ s.pc.toNat + 4 ≤ s.memSize ∧ w = s.mem.wordAt s.pc.toNat := readWord_eq_ok

theorem fetch_eq_error : s.fetch = .error e ↔ s.accessError s.pc = some e := readWord_eq_error

/-! The ends of an instruction. -/

theorem writeBack_reg {rd : Reg} (h : rd ≠ 0) : (s.writeBack rd v).reg rd = v := by
  rw [State.writeBack, advance_reg, setReg_reg_self _ _ _ h]

theorem writeBack_frame (s : State) (rd : Reg) (v : Word) : ResultFrame rd s (s.writeBack rd v) := by
  refine ⟨fun r h => ?_, rfl, fun a => ?_, ?_, ⟨?_, ?_⟩, ?_⟩ <;> simp [State.writeBack, setReg_reg_of_ne, *]

theorem writeBack_slot_zero (s : State) (rd : Reg) (v : Word) : (s.writeBack rd v).x[0] = s.x[0] := by
  simp [State.writeBack]

theorem jump_pc (s : State) (rd : Reg) (target : Word) : (s.jump rd target).pc = target := by
  simp only [State.jump]; split <;> simp

theorem jump_status (s : State) (rd : Reg) (target : Word) :
    (s.jump rd target).status = if target = s.pc then .halted else s.status := by
  simp only [State.jump]; split <;> simp

theorem jump_mem (s : State) (rd : Reg) (target : Word) : (s.jump rd target).mem = s.mem := by
  simp only [State.jump]; split <;> simp

theorem jump_parameters (s : State) (rd : Reg) (target : Word) : SameParameters s (s.jump rd target) := by
  simp only [State.jump, SameParameters]; split <;> simp

theorem jump_slot_zero (s : State) (rd : Reg) (target : Word) : (s.jump rd target).x[0] = s.x[0] := by
  simp only [State.jump]; split <;> simp

theorem jump_reg_self {rd : Reg} (h : rd ≠ 0) (target : Word) : (s.jump rd target).reg rd = s.pc + 4 := by
  simp only [State.jump]; split <;> simp [setReg_reg_self _ _ _ h, State.linkValue]

theorem jump_reg_of_ne {rd r : Reg} (h : r ≠ rd) (target : Word) : (s.jump rd target).reg r = s.reg r := by
  simp only [State.jump]; split <;> simp [setReg_reg_of_ne, h]

theorem branch_pc (s : State) (c : Bool) (target : Word) :
    (s.branch c target).pc = if c then target else s.pc + 4 := by
  cases c <;> rfl

/-- A branch changes nothing but `pc` (45_branch.md R200). -/
theorem branch_frame (s : State) (c : Bool) (target : Word) :
    SameRegs s (s.branch c target) ∧ SameMemory s (s.branch c target) ∧ (s.branch c target).status = s.status ∧
      SameParameters s (s.branch c target) ∧ (s.branch c target).x = s.x ∧ (s.branch c target).mem = s.mem := by
  cases c <;> exact ⟨fun _ => rfl, fun _ => rfl, rfl, ⟨rfl, rfl⟩, rfl, rfl⟩

/-! The operand forms, and the two instructions that can raise. -/

theorem shiftAmount_eq (s : State) (r : Reg) : s.shiftAmount r = (s.reg r).toNat % 32 := by
  simp [State.shiftAmount, BitVec.extractLsb'_toNat]

/-- Clearing bit 0 rounds down to the even number below. -/
theorem clear_bit_zero_toNat (v : Word) : (v &&& 0xFFFFFFFE#32).toNat = v.toNat / 2 * 2 := by
  have e : v &&& 0xFFFFFFFE#32 = (v >>> 1) <<< 1 := by
    apply BitVec.eq_of_getLsbD_eq
    intro i hi
    have m : ∀ j, j < 32 → (0xFFFFFFFE#32).getLsbD j = decide (1 ≤ j) := by decide
    rw [BitVec.getLsbD_and, m i hi, BitVec.getLsbD_shiftLeft, BitVec.getLsbD_ushiftRight]
    by_cases h : 1 ≤ i
    · simp [h, hi, show 1 + (i - 1) = i by omega, show i ≠ 0 by omega]
    · simp [show i = 0 by omega]
  rw [e, BitVec.toNat_shiftLeft, BitVec.toNat_ushiftRight, Nat.shiftLeft_eq, Nat.shiftRight_eq_div_pow]
  have := v.isLt
  omega

theorem jalrTarget_toNat (s : State) (rs1 : Reg) (imm : Word) :
    (s.jalrTarget rs1 imm).toNat = ((s.reg rs1).toNat + imm.toNat) % 2 ^ 32 / 2 * 2 := by
  rw [State.jalrTarget, clear_bit_zero_toNat, BitVec.toNat_add]

theorem lw_of_accessError {rd rs1 : Reg} {imm : Word} (h : s.accessError (s.reg rs1 + imm) = some e) :
    exec (.lw rd rs1 imm) s = .next (s.raise e) := by
  simp only [exec, execLw, State.effectiveAddress, State.readWord, h]

theorem lw_of_accessible {rd rs1 : Reg} {imm : Word} (h : s.accessError (s.reg rs1 + imm) = none) :
    exec (.lw rd rs1 imm) s = .next (s.writeBack rd (s.mem.wordAt (s.reg rs1 + imm).toNat)) := by
  simp only [exec, execLw, State.effectiveAddress, State.readWord, h]

theorem sw_of_accessError {rs1 rs2 : Reg} {imm : Word} (h : s.accessError (s.reg rs1 + imm) = some e) :
    exec (.sw rs1 rs2 imm) s = .next (s.raise e) := by
  simp only [exec, execSw, State.effectiveAddress, State.writeWord, h]

theorem sw_of_accessible {rs1 rs2 : Reg} {imm : Word} (h : s.accessError (s.reg rs1 + imm) = none) :
    exec (.sw rs1 rs2 imm) s =
      .next (State.advance { s with mem := s.mem.setWord (s.reg rs1 + imm).toNat (s.reg rs2) }) := by
  simp only [exec, execSw, State.effectiveAddress, State.writeWord, h]

/-! What an instruction can do. -/

/-- `exec` answers a next state for every instruction in every state. -/
theorem exec_total (i : Instr) (s : State) : ∃ t, exec i s = .next t := by
  cases i
  case lw rd rs1 imm => simp only [exec, execLw]; split <;> exact ⟨_, rfl⟩
  case sw rs1 rs2 imm => simp only [exec, execSw]; split <;> exact ⟨_, rfl⟩
  all_goals exact ⟨_, rfl⟩

/-- The address an access of `i` goes to, where `i` makes one. -/
def accessAddr (i : Instr) (s : State) : Option Word :=
  match i with
  | .lw _ rs1 imm => some (s.effectiveAddress rs1 imm)
  | .sw rs1 _ imm => some (s.effectiveAddress rs1 imm)
  | .add _ _ _ | .sub _ _ _ | .sll _ _ _ | .xor _ _ _ | .srl _ _ _ | .sra _ _ _ | .or _ _ _ | .and _ _ _ => none
  | .addi _ _ _ | .xori _ _ _ | .ori _ _ _ | .andi _ _ _ | .slli _ _ _ | .srli _ _ _ | .srai _ _ _ => none
  | .beq _ _ _ | .bne _ _ _ | .blt _ _ _ | .bge _ _ _ | .lui _ _ | .auipc _ _ | .jal _ _ | .jalr _ _ _ => none

/-- The destination register of `i`, where it has one (30_encoding.md R102). -/
def destOf (i : Instr) : Option Reg :=
  match i with
  | .add rd _ _ | .sub rd _ _ | .sll rd _ _ | .xor rd _ _ | .srl rd _ _ | .sra rd _ _ | .or rd _ _ | .and rd _ _ => some rd
  | .addi rd _ _ | .xori rd _ _ | .ori rd _ _ | .andi rd _ _ | .slli rd _ _ | .srli rd _ _ | .srai rd _ _ => some rd
  | .lw rd _ _ | .lui rd _ | .auipc rd _ | .jal rd _ | .jalr rd _ _ => some rd
  | .sw _ _ _ | .beq _ _ _ | .bne _ _ _ | .blt _ _ _ | .bge _ _ _ => none

/-- The offset of `i`, where it is a branch. -/
def branchOffset (i : Instr) : Option Word :=
  match i with
  | .beq _ _ imm | .bne _ _ imm | .blt _ _ imm | .bge _ _ imm => some imm
  | .add _ _ _ | .sub _ _ _ | .sll _ _ _ | .xor _ _ _ | .srl _ _ _ | .sra _ _ _ | .or _ _ _ | .and _ _ _ => none
  | .addi _ _ _ | .xori _ _ _ | .ori _ _ _ | .andi _ _ _ | .slli _ _ _ | .srli _ _ _ | .srai _ _ _ => none
  | .lw _ _ _ | .sw _ _ _ | .lui _ _ | .auipc _ _ | .jal _ _ | .jalr _ _ _ => none

/-- Everything `exec` can do: write a result, raise the error of its access, store, branch, or jump. -/
theorem exec_cases (h : exec i s = .next t) :
    (∃ rd v, destOf i = some rd ∧ isControlTransfer i.tag = false ∧ t = s.writeBack rd v) ∨
    (∃ a e, accessAddr i s = some a ∧ isControlTransfer i.tag = false ∧ s.accessError a = some e ∧ t = s.raise e) ∨
    (∃ rs1 rs2 imm, i = .sw rs1 rs2 imm ∧ s.accessError (s.effectiveAddress rs1 imm) = none ∧
      t = State.advance { s with mem := s.mem.setWord (s.effectiveAddress rs1 imm).toNat (s.reg rs2) }) ∨
    (∃ c imm, branchOffset i = some imm ∧ isControlTransfer i.tag = true ∧ isJump i.tag = false ∧
      t = s.branch c (s.pc + imm)) ∨
    (∃ rd target, destOf i = some rd ∧ isControlTransfer i.tag = true ∧ isJump i.tag = true ∧ t = s.jump rd target ∧
      ((∃ imm, i = .jal rd imm ∧ target = s.pc + imm) ∨
        ∃ rs1 imm, i = .jalr rd rs1 imm ∧ target = s.jalrTarget rs1 imm)) := by
  cases i
  case lw rd rs1 imm =>
    simp only [exec, execLw] at h
    split at h
    · rename_i e he
      exact .inr (.inl ⟨_, e, rfl, rfl, readWord_eq_error.1 he, by simpa using h.symm⟩)
    · exact .inl ⟨rd, _, rfl, rfl, by simpa using h.symm⟩
  case sw rs1 rs2 imm =>
    simp only [exec, execSw] at h
    split at h
    · rename_i e he
      exact .inr (.inl ⟨_, e, rfl, rfl, writeWord_eq_error.1 he, by simpa using h.symm⟩)
    · rename_i u hu
      obtain ⟨h1, h2, rfl⟩ := writeWord_eq_ok.1 hu
      exact .inr (.inr (.inl ⟨rs1, rs2, imm, rfl, accessError_eq_none.2 ⟨h1, h2⟩, by simpa using h.symm⟩))
  case beq rs1 rs2 imm => exact .inr (.inr (.inr (.inl ⟨_, imm, rfl, rfl, rfl, (Host.Outcome.next.inj h).symm⟩)))
  case bne rs1 rs2 imm => exact .inr (.inr (.inr (.inl ⟨_, imm, rfl, rfl, rfl, (Host.Outcome.next.inj h).symm⟩)))
  case blt rs1 rs2 imm => exact .inr (.inr (.inr (.inl ⟨_, imm, rfl, rfl, rfl, (Host.Outcome.next.inj h).symm⟩)))
  case bge rs1 rs2 imm => exact .inr (.inr (.inr (.inl ⟨_, imm, rfl, rfl, rfl, (Host.Outcome.next.inj h).symm⟩)))
  case jal rd imm =>
    exact .inr (.inr (.inr (.inr ⟨rd, _, rfl, rfl, rfl, (Host.Outcome.next.inj h).symm, .inl ⟨imm, rfl, rfl⟩⟩)))
  case jalr rd rs1 imm =>
    exact .inr (.inr (.inr (.inr ⟨rd, _, rfl, rfl, rfl, (Host.Outcome.next.inj h).symm, .inr ⟨rs1, imm, rfl, rfl⟩⟩)))
  all_goals exact .inl ⟨_, _, rfl, rfl, (Host.Outcome.next.inj h).symm⟩

/-- A decoded instruction writes only the register its word's `rd` field names (10_state.md R22). -/
theorem destOf_decode {rd : Reg} (h : decode w = .instr i) (hd : destOf i = some rd) : rd = rdField w := by
  cases decode_eq_instr.1 h <;> first
    | exact (Option.some.inj hd).symm
    | cases hd

/-! The step. -/

theorem step_of_not_running (h : s.status ≠ .running) : step s = .next s := by
  rw [step, cycle]
  split
  · rfl
  · rfl
  · exact absurd ‹_› h

theorem step_of_fetch_error (h : s.status = .running) (hf : s.fetch = .error e) : step s = .next (s.raise e) := by
  simp only [step, cycle, h, hf]

theorem step_of_unsupported (h : s.status = .running) (hf : s.fetch = .ok w) (hd : decode w = .unsupported) :
    step s = .next (s.raise (.decodeError w s.pc)) := by
  simp only [step, cycle, h, hf, hd]

/-- A step runs the decoded instruction. -/
theorem step_of_decode (h : s.status = .running) (hf : s.fetch = .ok w) (hd : decode w = .instr i) : step s = exec i s := by
  simp only [step, cycle, h, hf, hd]

/-- Everything a step can do (40_step_sequencer.md R120): keep a terminal state, raise at fetch, raise at decode, or run
the decoded instruction. -/
theorem step_cases (h : step s = .next t) :
    (s.status ≠ .running ∧ t = s) ∨
    (s.status = .running ∧ ∃ e, s.accessError s.pc = some e ∧ t = s.raise e) ∨
    (s.status = .running ∧ ∃ w, s.fetch = .ok w ∧ decode w = .unsupported ∧ t = s.raise (.decodeError w s.pc)) ∨
    (s.status = .running ∧ ∃ w i, s.fetch = .ok w ∧ decode w = .instr i ∧ exec i s = .next t) := by
  by_cases hr : s.status = .running
  · cases hf : s.fetch with
    | error e =>
      rw [step_of_fetch_error hr hf] at h
      exact .inr (.inl ⟨hr, e, fetch_eq_error.1 hf, (Host.Outcome.next.inj h).symm⟩)
    | ok w =>
      cases hd : decode w with
      | unsupported =>
        rw [step_of_unsupported hr hf hd] at h
        exact .inr (.inr (.inl ⟨hr, w, rfl, hd, (Host.Outcome.next.inj h).symm⟩))
      | instr i =>
        rw [step_of_decode hr hf hd] at h
        exact .inr (.inr (.inr ⟨hr, w, i, rfl, hd, h⟩))
  · rw [step_of_not_running hr] at h
    exact .inl ⟨hr, (Host.Outcome.next.inj h).symm⟩

/-! The retire event. -/

theorem retireEvent_of_not_running (h : s.status ≠ .running) : s.retireEvent = none := by
  rw [State.retireEvent]
  split
  · rfl
  · rfl
  · exact absurd ‹_› h

theorem retireEvent_of_fetch_error (hf : s.fetch = .error e) : s.retireEvent = none := by
  rw [State.retireEvent]
  split
  · rfl
  · rfl
  · rw [hf]

theorem retireEvent_of_unsupported (hf : s.fetch = .ok w) (hd : decode w = .unsupported) : s.retireEvent = none := by
  rw [State.retireEvent]
  split
  · rfl
  · rfl
  · simp only [hf, hd]

theorem retireEvent_of_exec (h : s.status = .running) (hf : s.fetch = .ok w) (hd : decode w = .instr i)
    (ht : exec i s = .next t) : s.retireEvent = eventOf i s t := by
  simp only [State.retireEvent, h, hf, hd, ht]

end Sys2Proof.Machine
end

