-- ==== Sys2Proof/Laws/PerInstr.lean ====
section
/-! SUPPORT. Statements made per instruction. -/

namespace Sys2Proof.Laws.RoundTrip

/-- Decoding the word of a well-formed instruction gives the instruction back (30_encoding.md R103). -/
def Statement (i : Instr) : Prop := i.wf = true → decode (encode i) = .instr i

theorem add (rd rs1 rs2 : Reg) : Statement (.add rd rs1 rs2) := by
  intro _
  simp [encode, decode, decodeOp]

theorem sub (rd rs1 rs2 : Reg) : Statement (.sub rd rs1 rs2) := by
  intro _
  simp [encode, decode, decodeOp]

theorem sll (rd rs1 rs2 : Reg) : Statement (.sll rd rs1 rs2) := by
  intro _
  simp [encode, decode, decodeOp]

theorem xor (rd rs1 rs2 : Reg) : Statement (.xor rd rs1 rs2) := by
  intro _
  simp [encode, decode, decodeOp]

theorem srl (rd rs1 rs2 : Reg) : Statement (.srl rd rs1 rs2) := by
  intro _
  simp [encode, decode, decodeOp]

theorem sra (rd rs1 rs2 : Reg) : Statement (.sra rd rs1 rs2) := by
  intro _
  simp [encode, decode, decodeOp]

theorem or (rd rs1 rs2 : Reg) : Statement (.or rd rs1 rs2) := by
  intro _
  simp [encode, decode, decodeOp]

theorem and (rd rs1 rs2 : Reg) : Statement (.and rd rs1 rs2) := by
  intro _
  simp [encode, decode, decodeOp]

theorem addi (rd rs1 : Reg) (imm : Word) : Statement (.addi rd rs1 imm) := by
  intro h
  simp [Instr.wf] at h
  simp [encode, decode, decodeOpImm, h]

theorem xori (rd rs1 : Reg) (imm : Word) : Statement (.xori rd rs1 imm) := by
  intro h
  simp [Instr.wf] at h
  simp [encode, decode, decodeOpImm, h]

theorem ori (rd rs1 : Reg) (imm : Word) : Statement (.ori rd rs1 imm) := by
  intro h
  simp [Instr.wf] at h
  simp [encode, decode, decodeOpImm, h]

theorem andi (rd rs1 : Reg) (imm : Word) : Statement (.andi rd rs1 imm) := by
  intro h
  simp [Instr.wf] at h
  simp [encode, decode, decodeOpImm, h]

theorem slli (rd rs1 : Reg) (shamt : BitVec 5) : Statement (.slli rd rs1 shamt) := by
  intro _
  simp [encode, decode, decodeOpImm]

theorem srli (rd rs1 : Reg) (shamt : BitVec 5) : Statement (.srli rd rs1 shamt) := by
  intro _
  simp [encode, decode, decodeOpImm]

theorem srai (rd rs1 : Reg) (shamt : BitVec 5) : Statement (.srai rd rs1 shamt) := by
  intro _
  simp [encode, decode, decodeOpImm]

theorem lw (rd rs1 : Reg) (imm : Word) : Statement (.lw rd rs1 imm) := by
  intro h
  simp [Instr.wf] at h
  simp [encode, decode, decodeLoad, h]

theorem sw (rs1 rs2 : Reg) (imm : Word) : Statement (.sw rs1 rs2 imm) := by
  intro h
  simp [Instr.wf] at h
  simp [encode, decode, decodeStore, h]

theorem beq (rs1 rs2 : Reg) (imm : Word) : Statement (.beq rs1 rs2 imm) := by
  intro h
  simp [Instr.wf] at h
  simp [encode, decode, decodeBranch, h]

theorem bne (rs1 rs2 : Reg) (imm : Word) : Statement (.bne rs1 rs2 imm) := by
  intro h
  simp [Instr.wf] at h
  simp [encode, decode, decodeBranch, h]

theorem blt (rs1 rs2 : Reg) (imm : Word) : Statement (.blt rs1 rs2 imm) := by
  intro h
  simp [Instr.wf] at h
  simp [encode, decode, decodeBranch, h]

theorem bge (rs1 rs2 : Reg) (imm : Word) : Statement (.bge rs1 rs2 imm) := by
  intro h
  simp [Instr.wf] at h
  simp [encode, decode, decodeBranch, h]

theorem lui (rd : Reg) (imm : Word) : Statement (.lui rd imm) := by
  intro h
  simp [Instr.wf] at h
  simp [encode, decode, h]

theorem auipc (rd : Reg) (imm : Word) : Statement (.auipc rd imm) := by
  intro h
  simp [Instr.wf] at h
  simp [encode, decode, h]

theorem jal (rd : Reg) (imm : Word) : Statement (.jal rd imm) := by
  intro h
  simp [Instr.wf] at h
  simp [encode, decode, h]

theorem jalr (rd rs1 : Reg) (imm : Word) : Statement (.jalr rd rs1 imm) := by
  intro h
  simp [Instr.wf] at h
  simp [encode, decode, decodeJalr, h]

end Sys2Proof.Laws.RoundTrip
end

