-- ==== Sys2Proof/Laws/Session.lean ====
section
/-! SUPPORT. One specification per operation of the host and per run (40_step_sequencer.md R133, R136). -/

namespace Sys2Proof.Machine

variable {s t : State} {n : Nat}

/-! Runs. -/

theorem runLog_of_not_running (h : s.status ≠ .running) : runLog n s = (s, []) := by
  cases n with
  | zero => rfl
  | succ n =>
    rw [runLog]
    split
    · rfl
    · rfl
    · exact absurd ‹_› h

theorem runLog_succ (h : s.status = .running) (ht : step s = .next t) :
    runLog (n + 1) s = ((runLog n t).1, s.retireEvent.toList ++ (runLog n t).2) := by
  rw [runLog]; simp only [h, ht]

theorem step_total (s : State) : ∃ t, step s = .next t := by
  by_cases hr : s.status = .running
  · cases hf : s.fetch with
    | error e => exact ⟨_, step_of_fetch_error hr hf⟩
    | ok w =>
      cases hd : decode w with
      | unsupported => exact ⟨_, step_of_unsupported hr hf hd⟩
      | instr i => exact (exec_total i s).imp fun t ht => by rw [step_of_decode hr hf hd, ht]
  · exact ⟨s, step_of_not_running hr⟩

/-! The host's load and its listings. -/

theorem loadImage_eq_some {bytes : List Byte} {base : Word} :
    s.loadImage bytes base = some t ↔ base.toNat % 4 = 0 ∧ base.toNat + bytes.length ≤ s.memSize ∧
      t = { s with mem := s.mem.setBytes base.toNat bytes, base := base, pc := base } := by
  rw [State.loadImage]
  split
  · exact ⟨(nomatch ·), fun ⟨h, hb, _⟩ => by omega⟩
  · exact ⟨fun h => ⟨by omega, by omega, (Option.some.inj h).symm⟩, fun ⟨_, _, h⟩ => h ▸ rfl⟩

/-- In a running session whose `pc` is its BASE, the pipeline's probe is the host's load of one word (log entry 6). -/
theorem placeAtPc_eq_load (hr : s.status = .running) (hb : s.base = s.pc) (h4 : s.pc.toNat % 4 = 0)
    (hm : s.pc.toNat + 4 ≤ s.memSize) (w : Word) : s.loadImage (bytesOfWord w) s.pc = some (s.placeAtPc w) := by
  rw [loadImage_eq_some]
  refine ⟨h4, hm, ?_⟩
  rw [State.placeAtPc, writeWord_eq_ok.2 ⟨h4, hm, rfl⟩]
  cases s
  simp only at hr hb
  subst hr hb
  rfl

theorem bytesFrom_length (m : Memory) (a n : Nat) : (m.bytesFrom a n).length = n := by
  induction n generalizing a with
  | zero => rfl
  | succ n ih => rw [Memory.bytesFrom, List.length_cons, ih]

theorem bytesFrom_getElem (m : Memory) (a n k : Nat) (h : k < (m.bytesFrom a n).length) :
    (m.bytesFrom a n)[k] = m.byteAt (a + k) := by
  induction n generalizing a k with
  | zero => cases h
  | succ n ih =>
    cases k with
    | zero => rfl
    | succ k =>
      refine (ih (a + 1) k (Nat.lt_of_succ_lt_succ h)).trans ?_
      rw [Nat.add_right_comm, Nat.add_assoc]

theorem disassembly_length (m : Memory) (a n : Nat) : (m.disassembly a n).length = n := by
  induction n generalizing a with
  | zero => rfl
  | succ n ih => rw [Memory.disassembly, List.length_cons, ih]

theorem disassembly_getElem (m : Memory) (a n k : Nat) (h : k < (m.disassembly a n).length) :
    (m.disassembly a n)[k] =
      { addr := a + 4 * k, word := m.wordAt (a + 4 * k), decoded := decode (m.wordAt (a + 4 * k)) } := by
  induction n generalizing a k with
  | zero => cases h
  | succ n ih =>
    cases k with
    | zero => rfl
    | succ k =>
      refine (ih (a + 4) k (Nat.lt_of_succ_lt_succ h)).trans ?_
      rw [show a + 4 + 4 * k = a + 4 * (k + 1) by omega]

end Sys2Proof.Machine
end

