-- ==== Sys2Proof/Tests/Slice0.lean ====
section
/-! SUPPORT. The model's own tests. Expected results come from `spec/95_test_vectors.md` (the section is named at each
group) or from the rule named. The last part shows, for every statement with hypotheses, values that meet them. -/

open Sys2Proof Sys2Proof.Machine

namespace Sys2Proof.Tests

/-! ## Well-formedness refuses an immediate outside its format (30_encoding.md R90 to R95, R103) -/

theorem test_wf_refuses_imm12 :
    (Instr.addi 1 0 2048).wf = false ∧ (Instr.xori 1 0 (-2049)).wf = false ∧ (Instr.ori 1 0 4096).wf = false ∧
      (Instr.andi 1 0 0x80000000).wf = false ∧ (Instr.lw 1 0 2048).wf = false ∧ (Instr.sw 1 0 (-2049)).wf = false ∧
      (Instr.jalr 1 0 2048).wf = false := by decide

theorem test_wf_refuses_branch_offset :
    (Instr.beq 1 2 4096).wf = false ∧ (Instr.bne 1 2 (-4098)).wf = false ∧ (Instr.blt 1 2 3).wf = false ∧
      (Instr.bge 1 2 (-1)).wf = false := by decide

theorem test_wf_refuses_upper_immediate :
    (Instr.lui 1 0x00001001).wf = false ∧ (Instr.auipc 1 0x00000800).wf = false := by decide

theorem test_wf_refuses_jump_offset :
    (Instr.jal 1 1048576).wf = false ∧ (Instr.jal 1 (-1048578)).wf = false ∧ (Instr.jal 1 5).wf = false := by decide

theorem test_wf_accepts_extremes :
    (Instr.addi 1 0 (-2048)).wf = true ∧ (Instr.addi 1 0 2047).wf = true ∧ (Instr.beq 1 2 (-4096)).wf = true ∧
      (Instr.beq 1 2 4094).wf = true ∧ (Instr.lui 1 0xFFFFF000).wf = true ∧ (Instr.jal 1 (-1048576)).wf = true ∧
      (Instr.jal 1 1048574).wf = true := by decide

/-! ## Decoding, the words written out field by field from 30_encoding.md R83 to R89 and the fixed bits of R97 -/

theorem test_decode_register_register :
    decode (0b0000000#7 ++ 0b00010#5 ++ 0b10001#5 ++ 0b000#3 ++ 0b01011#5 ++ 0b0110011#7) = .instr (.add 11 17 2) ∧
      decode (0b0100000#7 ++ 0b00010#5 ++ 0b10001#5 ++ 0b000#3 ++ 0b01011#5 ++ 0b0110011#7) = .instr (.sub 11 17 2) ∧
      decode (0b0000000#7 ++ 0b00010#5 ++ 0b10001#5 ++ 0b001#3 ++ 0b01011#5 ++ 0b0110011#7) = .instr (.sll 11 17 2) ∧
      decode (0b0000000#7 ++ 0b00010#5 ++ 0b10001#5 ++ 0b100#3 ++ 0b01011#5 ++ 0b0110011#7) = .instr (.xor 11 17 2) ∧
      decode (0b0000000#7 ++ 0b00010#5 ++ 0b10001#5 ++ 0b101#3 ++ 0b01011#5 ++ 0b0110011#7) = .instr (.srl 11 17 2) ∧
      decode (0b0100000#7 ++ 0b00010#5 ++ 0b10001#5 ++ 0b101#3 ++ 0b01011#5 ++ 0b0110011#7) = .instr (.sra 11 17 2) ∧
      decode (0b0000000#7 ++ 0b00010#5 ++ 0b10001#5 ++ 0b110#3 ++ 0b01011#5 ++ 0b0110011#7) = .instr (.or 11 17 2) ∧
      decode (0b0000000#7 ++ 0b00010#5 ++ 0b10001#5 ++ 0b111#3 ++ 0b01011#5 ++ 0b0110011#7) = .instr (.and 11 17 2) := by decide

theorem test_decode_register_immediate :
    decode (0b100000000101#12 ++ 0b10001#5 ++ 0b000#3 ++ 0b01011#5 ++ 0b0010011#7) = .instr (.addi 11 17 (-2043)) ∧
      decode (0b100000000101#12 ++ 0b10001#5 ++ 0b100#3 ++ 0b01011#5 ++ 0b0010011#7) = .instr (.xori 11 17 (-2043)) ∧
      decode (0b100000000101#12 ++ 0b10001#5 ++ 0b110#3 ++ 0b01011#5 ++ 0b0010011#7) = .instr (.ori 11 17 (-2043)) ∧
      decode (0b100000000101#12 ++ 0b10001#5 ++ 0b111#3 ++ 0b01011#5 ++ 0b0010011#7) = .instr (.andi 11 17 (-2043)) ∧
      decode (0b0000000#7 ++ 0b10011#5 ++ 0b10001#5 ++ 0b001#3 ++ 0b01011#5 ++ 0b0010011#7) = .instr (.slli 11 17 19) ∧
      decode (0b0000000#7 ++ 0b10011#5 ++ 0b10001#5 ++ 0b101#3 ++ 0b01011#5 ++ 0b0010011#7) = .instr (.srli 11 17 19) ∧
      decode (0b0100000#7 ++ 0b10011#5 ++ 0b10001#5 ++ 0b101#3 ++ 0b01011#5 ++ 0b0010011#7) = .instr (.srai 11 17 19) := by decide

theorem test_decode_load_store :
    decode (0b011111111110#12 ++ 0b10001#5 ++ 0b010#3 ++ 0b01011#5 ++ 0b0000011#7) = .instr (.lw 11 17 2046) ∧
      decode (0b1000000#7 ++ 0b00010#5 ++ 0b10001#5 ++ 0b010#3 ++ 0b00101#5 ++ 0b0100011#7) = .instr (.sw 17 2 (-2043)) := by decide

theorem test_decode_branch :
    decode (0b0#1 ++ 0b100000#6 ++ 0b00010#5 ++ 0b10001#5 ++ 0b000#3 ++ 0b0011#4 ++ 0b1#1 ++ 0b1100011#7) = .instr (.beq 17 2 3078) ∧
      decode (0b0#1 ++ 0b100000#6 ++ 0b00010#5 ++ 0b10001#5 ++ 0b001#3 ++ 0b0011#4 ++ 0b1#1 ++ 0b1100011#7) = .instr (.bne 17 2 3078) ∧
      decode (0b0#1 ++ 0b100000#6 ++ 0b00010#5 ++ 0b10001#5 ++ 0b100#3 ++ 0b0011#4 ++ 0b1#1 ++ 0b1100011#7) = .instr (.blt 17 2 3078) ∧
      decode (0b0#1 ++ 0b100000#6 ++ 0b00010#5 ++ 0b10001#5 ++ 0b101#3 ++ 0b0011#4 ++ 0b1#1 ++ 0b1100011#7) = .instr (.bge 17 2 3078) := by decide

theorem test_decode_upper_immediate :
    decode (0b10000000000000000011#20 ++ 0b01011#5 ++ 0b0110111#7) = .instr (.lui 11 0x80003000) ∧
      decode (0b10000000000000000011#20 ++ 0b01011#5 ++ 0b0010111#7) = .instr (.auipc 11 0x80003000) := by decide

theorem test_decode_jump :
    decode (0b1#1 ++ 0b0000000001#10 ++ 0b1#1 ++ 0b00000010#8 ++ 0b01011#5 ++ 0b1101111#7) = .instr (.jal 11 (-1048576 + 8192 + 2048 + 2)) ∧
      decode (0b100000000101#12 ++ 0b10001#5 ++ 0b000#3 ++ 0b01011#5 ++ 0b1100111#7) = .instr (.jalr 11 17 (-2043)) := by decide

/-- 95_test_vectors.md section 2.7. -/
theorem test_decode_extremes :
    decode 0x80000093#32 = .instr (.addi 1 0 (-2048)) ∧
      decode 0x7FF00093#32 = .instr (.addi 1 0 2047) ∧
      decode 0xFFFFAF83#32 = .instr (.lw 31 31 (-1)) ∧
      decode 0x800F8067#32 = .instr (.jalr 0 31 (-2048)) ∧
      decode 0x8062A023#32 = .instr (.sw 5 6 (-2048)) ∧
      decode 0xFE62AFA3#32 = .instr (.sw 5 6 (-1)) ∧
      decode 0xFE208FE3#32 = .instr (.beq 1 2 (-2)) ∧
      decode 0x002080E3#32 = .instr (.beq 1 2 2048) ∧
      decode 0x81EF9063#32 = .instr (.bne 31 30 (-4096)) ∧
      decode 0x7E000FE3#32 = .instr (.beq 0 0 4094) ∧
      decode 0xFFFFF06F#32 = .instr (.jal 0 (-2)) ∧
      decode 0x001000EF#32 = .instr (.jal 1 2048) ∧
      decode 0x000010EF#32 = .instr (.jal 1 4096) ∧
      decode 0x7FF7FFEF#32 = .instr (.jal 31 524286) ∧
      decode 0x800000EF#32 = .instr (.jal 1 (-1048576)) ∧
      decode 0x7FFFF0EF#32 = .instr (.jal 1 1048574) ∧
      decode 0xABCDEFB7#32 = .instr (.lui 31 0xABCDE000) := by decide

/-- 95_test_vectors.md section 2.8. -/
theorem test_decode_unsupported :
    decode 0x00000000#32 = .unsupported ∧
      decode 0xFFFFFFFF#32 = .unsupported ∧
      decode 0x002081B1#32 = .unsupported ∧
      decode 0x00000073#32 = .unsupported ∧
      decode 0x00100073#32 = .unsupported ∧
      decode 0x30529073#32 = .unsupported ∧
      decode 0x0FF0000F#32 = .unsupported ∧
      decode 0x00028303#32 = .unsupported ∧
      decode 0x0002D303#32 = .unsupported ∧
      decode 0x0002B303#32 = .unsupported ∧
      decode 0x00628023#32 = .unsupported ∧
      decode 0x0062B023#32 = .unsupported ∧
      decode 0x0020A1B3#32 = .unsupported ∧
      decode 0x0020B1B3#32 = .unsupported ∧
      decode 0x0010A193#32 = .unsupported ∧
      decode 0x0010B193#32 = .unsupported ∧
      decode 0x0020E463#32 = .unsupported ∧
      decode 0x0020A463#32 = .unsupported ∧
      decode 0x022081B3#32 = .unsupported ∧
      decode 0x4020F1B3#32 = .unsupported ∧
      decode 0x402091B3#32 = .unsupported ∧
      decode 0x802081B3#32 = .unsupported ∧
      decode 0x422081B3#32 = .unsupported ∧
      decode 0x40009193#32 = .unsupported ∧
      decode 0x02009193#32 = .unsupported ∧
      decode 0x0200D193#32 = .unsupported ∧
      decode 0x4200D193#32 = .unsupported ∧
      decode 0x8000D193#32 = .unsupported ∧
      decode 0x000290E7#32 = .unsupported ∧
      decode 0x002081BB#32 = .unsupported ∧
      decode 0x0020A1AF#32 = .unsupported ∧
      decode 0x00002007#32 = .unsupported := by decide

/-- The image bytes of program P1, 95_test_vectors.md section 3. -/
theorem test_decode_bytes_in_memory_order :
    decodeBytes [0x93, 0x00, 0xA0, 0x02] = .instr (.addi 1 0 42) ∧
      decodeBytes [0x93, 0x00, 0xA0] = .unsupported ∧
      decodeTableWord 32 0x02A00093 = some (.addi 1 0 42) ∧
      decodeTableWord 32 0x00000073 = none := by decide

/-! ## One step of each instruction, 95_test_vectors.md sections 2.1 to 2.6: the word at 0x100, MEM_SIZE 0x1000 -/

/-- The section's start state: the word at `pc` = 0x100, the registers and memory words of the row. -/
def rowState (w : Word) (regs : List (Reg × Word)) (words : List (Nat × Word)) : State :=
  let s := { State.reset with pc := 0x100, memSize := 0x1000, mem := Memory.setWord [] 0x100 w }
  let s := regs.foldl (fun s p => s.setReg p.1 p.2) s
  words.foldl (fun s p => { s with mem := s.mem.setWord p.1 p.2 }) s

/-- One register, `pc` and the status after one step. -/
def after (s : State) (r : Reg) : Option (Word × Word × Status) :=
  match step s with
  | .next t => some (t.reg r, t.pc, t.status)
  | .fault _ => none
  | .refused _ => none

/-- One memory word, `pc` and the status after one step. -/
def afterWord (s : State) (a : Nat) : Option (Word × Word × Status) :=
  match step s with
  | .next t => some (t.mem.wordAt a, t.pc, t.status)
  | .fault _ => none
  | .refused _ => none

theorem test_add_overflow :
    after (rowState 0x002081B3 [(1, 0x7FFFFFFF), (2, 1)] []) 3 = some (0x80000000, 0x104, .running) := by decide

theorem test_add_to_x0 :
    after (rowState 0x00208033 [(1, 5), (2, 7)] []) 0 = some (0, 0x104, .running) := by decide

theorem test_sub_borrow :
    after (rowState 0x402081B3 [(1, 5), (2, 7)] []) 3 = some (0xFFFFFFFE, 0x104, .running) := by decide

theorem test_sub_overflow :
    after (rowState 0x402081B3 [(1, 0x80000000), (2, 1)] []) 3 = some (0x7FFFFFFF, 0x104, .running) := by decide

theorem test_and :
    after (rowState 0x0020F1B3 [(1, 0xFF00FF00), (2, 0x0FF00FF0)] []) 3 = some (0x0F000F00, 0x104, .running) := by decide

theorem test_or :
    after (rowState 0x0020E1B3 [(1, 0xFF00FF00), (2, 0x0FF00FF0)] []) 3 = some (0xFFF0FFF0, 0x104, .running) := by decide

theorem test_xor :
    after (rowState 0x0020C1B3 [(1, 0xFF00FF00), (2, 0x0FF00FF0)] []) 3 = some (0xF0F0F0F0, 0x104, .running) := by decide

theorem test_sll_by_32 :
    after (rowState 0x002091B3 [(1, 1), (2, 0x20)] []) 3 = some (1, 0x104, .running) := by decide

theorem test_sll_low_five_bits :
    after (rowState 0x002091B3 [(1, 3), (2, 0xFFFFFFE4)] []) 3 = some (0x30, 0x104, .running) := by decide

theorem test_srl_by_31 :
    after (rowState 0x0020D1B3 [(1, 0x80000000), (2, 0x1F)] []) 3 = some (1, 0x104, .running) := by decide

theorem test_srl_low_five_bits :
    after (rowState 0x0020D1B3 [(1, 0x80000000), (2, 0x24)] []) 3 = some (0x08000000, 0x104, .running) := by decide

theorem test_sra_negative :
    after (rowState 0x4020D1B3 [(1, 0x80000000), (2, 4)] []) 3 = some (0xF8000000, 0x104, .running) := by decide

theorem test_sra_positive :
    after (rowState 0x4020D1B3 [(1, 0x7FFFFFFF), (2, 4)] []) 3 = some (0x07FFFFFF, 0x104, .running) := by decide

theorem test_addi_most_negative :
    after (rowState 0x80000093 [] []) 1 = some (0xFFFFF800, 0x104, .running) := by decide

theorem test_addi_wraps :
    after (rowState 0x00108093 [(1, 0x7FFFFFFF)] []) 1 = some (0x80000000, 0x104, .running) := by decide

theorem test_andi_negative :
    after (rowState 0xF000F193 [(1, 0x12345678)] []) 3 = some (0x12345600, 0x104, .running) := by decide

theorem test_ori_negative :
    after (rowState 0x8000E193 [(1, 0x12345678)] []) 3 = some (0xFFFFFE78, 0x104, .running) := by decide

theorem test_xori_not :
    after (rowState 0xFFF0C193 [(1, 0x12345678)] []) 3 = some (0xEDCBA987, 0x104, .running) := by decide

theorem test_slli_by_31 :
    after (rowState 0x01F09193 [(1, 0x80000001)] []) 3 = some (0x80000000, 0x104, .running) := by decide

theorem test_slli_by_4 :
    after (rowState 0x00409193 [(1, 0x12345678)] []) 3 = some (0x23456780, 0x104, .running) := by decide

theorem test_srli_by_31 :
    after (rowState 0x01F0D193 [(1, 0x80000001)] []) 3 = some (1, 0x104, .running) := by decide

theorem test_srli_by_4 :
    after (rowState 0x0040D193 [(1, 0x87654321)] []) 3 = some (0x08765432, 0x104, .running) := by decide

theorem test_srai_negative :
    after (rowState 0x4040D193 [(1, 0x87654321)] []) 3 = some (0xF8765432, 0x104, .running) := by decide

theorem test_srai_positive :
    after (rowState 0x4040D193 [(1, 0x07654321)] []) 3 = some (0x00765432, 0x104, .running) := by decide

theorem test_lui_clears_low :
    after (rowState 0x800002B7 [(5, 0xABC)] []) 5 = some (0x80000000, 0x104, .running) := by decide

theorem test_lui_to_x0 :
    after (rowState 0x12345037 [] []) 0 = some (0, 0x104, .running) := by decide

theorem test_auipc_wraps :
    after (rowState 0xFFFFF297 [] []) 5 = some (0xFFFFF100, 0x104, .running) := by decide

theorem test_auipc_zero :
    after (rowState 0x00000297 [] []) 5 = some (0x100, 0x104, .running) := by decide

theorem test_lw_last_word :
    after (rowState 0xFFC2A303 [(5, 0x1000)] [(0xFFC, 0x5A5A5AA5)]) 6 = some (0x5A5A5AA5, 0x104, .running) := by decide

theorem test_lw_does_not_wrap :
    after (rowState 0xFFC02303 [] []) 6 = some (0, 0x100, .error (.memoryError .outOfBounds 0xFFFFFFFC)) := by decide

theorem test_sw_last_word :
    afterWord (rowState 0x0062A023 [(5, 0xFFC), (6, 7)] []) 0xFFC = some (7, 0x104, .running) := by decide

theorem test_sw_misaligned :
    afterWord (rowState 0x0062A123 [(5, 0x200), (6, 1)] []) 0x200 = some (0, 0x100, .error (.memoryError .misaligned 0x202)) := by decide

theorem test_beq_taken :
    after (rowState 0x00208863 [(1, 5), (2, 5)] []) 1 = some (5, 0x110, .running) := by decide

theorem test_beq_not_taken :
    after (rowState 0x00208863 [(1, 5), (2, 6)] []) 1 = some (5, 0x104, .running) := by decide

theorem test_bne_taken_backward :
    after (rowState 0xFE2098E3 [(1, 5), (2, 6)] []) 1 = some (5, 0x0F0, .running) := by decide

theorem test_bne_not_taken :
    after (rowState 0xFE2098E3 [(1, 5), (2, 5)] []) 1 = some (5, 0x104, .running) := by decide

theorem test_blt_signed :
    after (rowState 0x0020C463 [(1, 0x80000000), (2, 0x7FFFFFFF)] []) 1 = some (0x80000000, 0x108, .running) := by decide

theorem test_blt_equal :
    after (rowState 0x0020C463 [(1, 5), (2, 5)] []) 1 = some (5, 0x104, .running) := by decide

theorem test_bge_equal :
    after (rowState 0x0020D463 [(1, 5), (2, 5)] []) 1 = some (5, 0x108, .running) := by decide

theorem test_bge_signed :
    after (rowState 0x0020D463 [(1, 0xFFFFFFFF), (2, 1)] []) 1 = some (0xFFFFFFFF, 0x104, .running) := by decide

theorem test_jal_backward :
    after (rowState 0xFF9FF0EF [] []) 1 = some (0x104, 0x0F8, .running) := by decide

theorem test_jal_halts_after_link :
    after (rowState 0x000000EF [] []) 1 = some (0x104, 0x100, .halted) := by decide

theorem test_jalr_reads_old_source :
    after (rowState 0x004282E7 [(5, 0x200)] []) 5 = some (0x104, 0x204, .running) := by decide

theorem test_jalr_halts_with_bit_zero_cleared :
    after (rowState 0x00128067 [(5, 0x100)] []) 5 = some (0x100, 0x100, .halted) := by decide

/-- 95_test_vectors.md section 2.4: bytes mem[0x200..0x203] = EF BE AD DE. -/
theorem test_store_bytes :
    (Memory.setWord [] 0x200 0xDEADBEEF).bytesFrom 0x200 4 = [0xEF, 0xBE, 0xAD, 0xDE] := by decide

/-- 95_test_vectors.md section 2.5: a branch to itself does not halt. -/
theorem test_branch_to_itself_runs : after (rowState 0x00000063 [] []) 0 = some (0, 0x100, .running) := by decide

/-- 95_test_vectors.md section 2.8. -/
theorem test_unsupported_word :
    after (rowState 0x00000073 [] []) 0 = some (0, 0x100, .error (.decodeError 0x00000073 0x100)) := by decide

/-- 20_memory.md R58. -/
theorem test_fetch_misaligned :
    after { State.reset with pc := 0x102 } 0 = some (0, 0x102, .error (.memoryError .misaligned 0x102)) := by decide

/-- 20_memory.md R58. -/
theorem test_fetch_out_of_bounds :
    after { State.reset with pc := 0x00100000 } 0 =
      some (0, 0x00100000, .error (.memoryError .outOfBounds 0x00100000)) := by decide

/-- 20_memory.md R63: from reset with nothing loaded the first step raises `DecodeError(0, BASE)`. -/
theorem test_step_from_reset : after State.reset 0 = some (0, 0, .error (.decodeError 0 0)) := by decide

/-- 70_reset_and_hazards.md R270: the first instruction after reset runs (`addi x1,x0,42`). -/
theorem test_first_instruction :
    after (State.reset.withFetchWord 32 0x02A00093) 1 = some (0x2A, 4, .running) := by decide

/-- 40_step_sequencer.md R131. -/
theorem test_retire_events :
    (rowState 0x00208863 [(1, 5), (2, 6)] []).retireEvent = some { tag := .beq, taken := some false } ∧
      (rowState 0x0000006F [] []).retireEvent = some { tag := .jal, taken := some true } ∧
      (rowState 0x00000013 [] []).retireEvent = some { tag := .addi, taken := none } ∧
      (rowState 0x00000073 [] []).retireEvent = none ∧ (rowState 0x0002A303 [(5, 1)] []).retireEvent = none := by decide

/-- The first two words of program P1, 95_test_vectors.md section 3, and the zero after them (R136). -/
theorem test_disassemble_forward :
    (State.reset.loadImage [0x93, 0x00, 0xA0, 0x02, 0x13, 0x81, 0x80, 0x00] 0).bind (·.disassembleForward 0 3) =
      some [{ addr := 0, word := 0x02A00093, decoded := .instr (.addi 1 0 42) },
        { addr := 4, word := 0x00808113, decoded := .instr (.addi 2 1 8) },
        { addr := 8, word := 0, decoded := .unsupported }] := by decide

/-- 20_memory.md R60. -/
theorem test_load_failures :
    State.reset.loadImage [0x13] 2 = none ∧ State.reset.loadImage [0, 0, 0, 0, 0] 0xFFFFC = none ∧
      launchState [] 0 6 = none ∧ launchState [] 0 0 = none := by decide

/-! ## Values that meet the hypotheses of each statement (a clause each, at the ends of its range) -/

theorem witness_DecodeOfEncode :
    (Instr.add 31 0 1).wf = true ∧
      (Instr.addi 0 31 (-2048)).wf = true ∧
      (Instr.beq 1 2 4094).wf = true ∧
      (Instr.lui 0 0xFFFFF000).wf = true ∧
      (Instr.jal 1 (-1048576)).wf = true := by decide

theorem witness_EncodeOfDecode :
    decode 0x81EF9063#32 = .instr (.bne 31 30 (-4096)) := by decide

theorem witness_DecodedInstructionsAreWellFormed :
    decode 0x7FFFF0EF#32 = .instr (.jal 1 1048574) := by decide

theorem witness_DecodeAgreesWithMaskTable :
    0x41FFDF93#32 &&& Tag.srai.mask = Tag.srai.pattern ∧ ∀ t : Tag, 0x00000073#32 &&& t.mask ≠ t.pattern := by
  refine ⟨by decide, fun t => ?_⟩
  cases t <;> decide

/-- One word for each clause in the statement's order, and a legal word for the other side of the equivalence. -/
theorem witness_UnsupportedCombinations :
    ∀ w ∈ [0x00000073#32, 0x00028303#32, 0x00628023#32, 0x0020A1B3#32, 0x0010B193#32, 0x0020F463#32,
        0x02009193#32, 0x8000D193#32, 0x000290E7#32, 0x022081B3#32, 0x4020F1B3#32, 0x40118233#32],
      (rowState w [] []).status = .running ∧ (rowState w [] []).fetch = .ok w :=
  fun w _ => ⟨rfl, fetch_eq_ok.2 ⟨(by decide : (0x100 : Word).toNat % 4 = 0),
    (by decide : (0x100 : Word).toNat + 4 ≤ 0x1000), (wordAt_setWord_self [] 0x100 w).symm⟩⟩

theorem witness_UnsupportedWordsFail :
    (rowState 0x00000073 [] []).status = .running ∧
      (rowState 0x00000073 [] []).fetch = .ok 0x00000073 ∧
      decode 0x00000073#32 = .unsupported := by decide

theorem witness_AddEffect :
    0x002081B3#32 &&& Tag.add.mask = Tag.add.pattern ∧
      rdField 0x002081B3#32 = 3 ∧
      (3 : Reg) ≠ 0 := by decide

theorem witness_SubEffect :
    0x402081B3#32 &&& Tag.sub.mask = Tag.sub.pattern ∧
      rdField 0x402081B3#32 = 3 ∧
      (3 : Reg) ≠ 0 := by decide

theorem witness_AndEffect :
    0x0020F1B3#32 &&& Tag.and.mask = Tag.and.pattern ∧
      rdField 0x0020F1B3#32 = 3 ∧
      (3 : Reg) ≠ 0 := by decide

theorem witness_OrEffect :
    0x0020E1B3#32 &&& Tag.or.mask = Tag.or.pattern ∧
      rdField 0x0020E1B3#32 = 3 ∧
      (3 : Reg) ≠ 0 := by decide

theorem witness_XorEffect :
    0x0020C1B3#32 &&& Tag.xor.mask = Tag.xor.pattern ∧
      rdField 0x0020C1B3#32 = 3 ∧
      (3 : Reg) ≠ 0 := by decide

theorem witness_SllEffect :
    0x002091B3#32 &&& Tag.sll.mask = Tag.sll.pattern ∧
      rdField 0x002091B3#32 = 3 ∧
      (3 : Reg) ≠ 0 := by decide

theorem witness_SrlEffect :
    0x0020D1B3#32 &&& Tag.srl.mask = Tag.srl.pattern ∧
      rdField 0x0020D1B3#32 = 3 ∧
      (3 : Reg) ≠ 0 := by decide

theorem witness_SraEffect :
    0x4020D1B3#32 &&& Tag.sra.mask = Tag.sra.pattern ∧
      rdField 0x4020D1B3#32 = 3 ∧
      (3 : Reg) ≠ 0 := by decide

theorem witness_AddiEffect :
    0x80000193#32 &&& Tag.addi.mask = Tag.addi.pattern ∧
      rdField 0x80000193#32 = 3 ∧
      (3 : Reg) ≠ 0 := by decide

theorem witness_AndiEffect :
    0xF000F193#32 &&& Tag.andi.mask = Tag.andi.pattern ∧
      rdField 0xF000F193#32 = 3 ∧
      (3 : Reg) ≠ 0 := by decide

theorem witness_OriEffect :
    0x8000E193#32 &&& Tag.ori.mask = Tag.ori.pattern ∧
      rdField 0x8000E193#32 = 3 ∧
      (3 : Reg) ≠ 0 := by decide

theorem witness_XoriEffect :
    0xFFF0C193#32 &&& Tag.xori.mask = Tag.xori.pattern ∧
      rdField 0xFFF0C193#32 = 3 ∧
      (3 : Reg) ≠ 0 := by decide

theorem witness_SlliEffect :
    0x01F09193#32 &&& Tag.slli.mask = Tag.slli.pattern ∧
      rdField 0x01F09193#32 = 3 ∧
      (3 : Reg) ≠ 0 ∧
      opcodeField 0x40009193#32 = 0b0010011 ∧
      funct3Field 0x40009193#32 = 0b001 ∧
      funct7Field 0x40009193#32 ≠ 0b0000000 := by decide

theorem witness_SrliEffect :
    0x01F0D193#32 &&& Tag.srli.mask = Tag.srli.pattern ∧
      rdField 0x01F0D193#32 = 3 ∧
      (3 : Reg) ≠ 0 ∧
      opcodeField 0x8000D193#32 = 0b0010011 ∧
      funct3Field 0x8000D193#32 = 0b101 ∧
      funct7Field 0x8000D193#32 ≠ 0b0000000 ∧
      funct7Field 0x8000D193#32 ≠ 0b0100000 := by decide

theorem witness_SraiEffect :
    0x41F0D193#32 &&& Tag.srai.mask = Tag.srai.pattern ∧
      rdField 0x41F0D193#32 = 3 ∧
      (3 : Reg) ≠ 0 := by decide

theorem witness_LuiEffect :
    0x123451B7#32 &&& Tag.lui.mask = Tag.lui.pattern ∧
      rdField 0x123451B7#32 = 3 ∧
      (3 : Reg) ≠ 0 := by decide

theorem witness_AuipcEffect :
    0xFFFFF197#32 &&& Tag.auipc.mask = Tag.auipc.pattern ∧
      rdField 0xFFFFF197#32 = 3 ∧
      (3 : Reg) ≠ 0 := by decide

/-- Registers 1 and 2 at two values, in the start state above. -/
def twoRegs (a b : Word) : State := rowState 0 [(1, a), (2, b)] []

/-- Misaligned by 1 and at the top of the address space; out of bounds by one word and at the top; the first and the last word. -/
theorem witness_LoadWordEffect :
    0x0002A303#32 &&& Tag.lw.mask = Tag.lw.pattern ∧
      (((twoRegs 0x200 0).reg 1 + 1).toNat % 4 ≠ 0 ∧ ((twoRegs 0 0).reg 1 + (-1)).toNat % 4 ≠ 0) ∧
      (((twoRegs 0xFFC 0).reg 1 + 4).toNat % 4 = 0 ∧ ((twoRegs 0xFFC 0).reg 1 + 4).toNat + 4 > (twoRegs 0xFFC 0).memSize) ∧
      (((twoRegs 0 0).reg 1 + (-4)).toNat % 4 = 0 ∧ ((twoRegs 0 0).reg 1 + (-4)).toNat + 4 > (twoRegs 0 0).memSize) ∧
      (((twoRegs 4 0).reg 1 + (-4)).toNat % 4 = 0 ∧ ((twoRegs 4 0).reg 1 + (-4)).toNat + 4 ≤ (twoRegs 4 0).memSize) ∧
      (((twoRegs 0xFF8 0).reg 1 + 4).toNat % 4 = 0 ∧ ((twoRegs 0xFF8 0).reg 1 + 4).toNat + 4 ≤ (twoRegs 0xFF8 0).memSize) ∧
      (3 : Reg) ≠ 0 := by decide

/-- As for the load. -/
theorem witness_StoreWordEffect :
    0x0062A023#32 &&& Tag.sw.mask = Tag.sw.pattern ∧
      (((twoRegs 0x200 0).reg 1 + 3).toNat % 4 ≠ 0 ∧ ((twoRegs 0xFFE 0).reg 1 + 0).toNat % 4 ≠ 0) ∧
      (((twoRegs 0xFFC 0).reg 1 + 4).toNat % 4 = 0 ∧ ((twoRegs 0xFFC 0).reg 1 + 4).toNat + 4 > (twoRegs 0xFFC 0).memSize) ∧
      (((twoRegs 4 0).reg 1 + (-4)).toNat % 4 = 0 ∧ ((twoRegs 4 0).reg 1 + (-4)).toNat + 4 ≤ (twoRegs 4 0).memSize) ∧
      (((twoRegs 0xFF8 0).reg 1 + 4).toNat % 4 = 0 ∧ ((twoRegs 0xFF8 0).reg 1 + 4).toNat + 4 ≤ (twoRegs 0xFF8 0).memSize) ∧
      3 < 4 := by decide

theorem witness_BeqEffect :
    0x00208863#32 &&& Tag.beq.mask = Tag.beq.pattern ∧
      (twoRegs 5 5).reg 1 = (twoRegs 5 5).reg 2 ∧
      (twoRegs 5 6).reg 1 ≠ (twoRegs 5 6).reg 2 := by decide

theorem witness_BneEffect :
    0xFE2098E3#32 &&& Tag.bne.mask = Tag.bne.pattern ∧
      (twoRegs 5 6).reg 1 ≠ (twoRegs 5 6).reg 2 ∧
      (twoRegs 5 5).reg 1 = (twoRegs 5 5).reg 2 := by decide

theorem witness_BltEffect :
    0x0020C463#32 &&& Tag.blt.mask = Tag.blt.pattern ∧
      ((twoRegs 0x80000000 0x7FFFFFFF).reg 1).toInt < ((twoRegs 0x80000000 0x7FFFFFFF).reg 2).toInt ∧
      ((twoRegs 5 5).reg 2).toInt ≤ ((twoRegs 5 5).reg 1).toInt := by decide

theorem witness_BgeEffect :
    0x0020D463#32 &&& Tag.bge.mask = Tag.bge.pattern ∧
      ((twoRegs 5 5).reg 2).toInt ≤ ((twoRegs 5 5).reg 1).toInt ∧
      ((twoRegs 0xFFFFFFFF 0).reg 1).toInt < ((twoRegs 0xFFFFFFFF 0).reg 2).toInt := by decide

theorem witness_JalEffect :
    0x008000EF#32 &&& Tag.jal.mask = Tag.jal.pattern ∧ (1 : Reg) ≠ 0 ∧
      (∃ t, exec (.jal 1 0) (twoRegs 0 0) = .next t ∧ t.pc = (twoRegs 0 0).pc) ∧
      ∃ t, exec (.jal 1 (-2)) (twoRegs 0 0) = .next t ∧ t.pc ≠ (twoRegs 0 0).pc :=
  ⟨by decide, by decide, ⟨_, rfl, by decide⟩, _, rfl, by decide⟩

theorem witness_JalrEffect :
    0x000280E7#32 &&& Tag.jalr.mask = Tag.jalr.pattern ∧ (1 : Reg) ≠ 0 ∧
      (∃ t, exec (.jalr 1 1 1) (twoRegs 0x100 0) = .next t ∧ t.pc = (twoRegs 0x100 0).pc) ∧
      ∃ t, exec (.jalr 1 1 2) (twoRegs 0x100 0) = .next t ∧ t.pc ≠ (twoRegs 0x100 0).pc :=
  ⟨by decide, by decide, ⟨_, rfl, by decide⟩, _, rfl, by decide⟩

/-- The last word of memory, which holds `sw x6,0(x5)`. -/
def lastWord : State :=
  { State.reset with pc := 0xFFC, memSize := 0x1000, mem := Memory.setWord [] 0xFFC 0x0062A023 }

theorem witness_StepRunsDecodedInstruction :
    lastWord.status = .running ∧ lastWord.pc.toNat % 4 = 0 ∧ lastWord.pc.toNat + 4 ≤ lastWord.memSize ∧
      decode (lastWord.mem.byteAt (lastWord.pc.toNat + 3) ++ lastWord.mem.byteAt (lastWord.pc.toNat + 2) ++
        lastWord.mem.byteAt (lastWord.pc.toNat + 1) ++ lastWord.mem.byteAt lastWord.pc.toNat) = .instr (.sw 5 6 0) := by
  decide

theorem witness_TerminalStatusKeepsState :
    State.reset.halt.status ≠ .running ∧ (State.reset.raise (.decodeError 0 0)).status ≠ .running := by decide

theorem witness_FetchErrors :
    (State.reset.setPc 0xFFFFE).status = .running ∧ (State.reset.setPc 0xFFFFE).pc.toNat % 4 ≠ 0 ∧
      (State.reset.setPc 0x100000).status = .running ∧ (State.reset.setPc 0x100000).pc.toNat % 4 = 0 ∧
      (State.reset.setPc 0x100000).pc.toNat + 4 > (State.reset.setPc 0x100000).memSize := by decide

/-- The five causes, each with the error it gives: both of the fetch, the decode error, both of a data access. -/
theorem witness_ErrorsAreThoseOfTheTable :
    ∀ s ∈ [State.reset.setPc 2, State.reset.setPc 0x100000, rowState 0x00000073 [] [], rowState 0x0012A303 [] [],
      rowState 0x0062A023 [(5, 0x1000)] []],
      s.status = .running ∧ ∃ t e, step s = .next t ∧ t.status = .error e := by
  simp only [List.forall_mem_cons]
  exact ⟨⟨rfl, _, _, rfl, rfl⟩, ⟨rfl, _, _, rfl, rfl⟩, ⟨rfl, _, _, rfl, rfl⟩, ⟨rfl, _, _, rfl, rfl⟩, ⟨rfl, _, _, rfl, rfl⟩,
    fun _ h => nomatch h⟩

theorem witness_ErrorsAreThoseOfTheTable_causes :
    (State.reset.setPc 2).pc.toNat % 4 ≠ 0 ∧ (State.reset.setPc 0x100000).pc.toNat + 4 > (State.reset.setPc 0x100000).memSize ∧
      ((rowState 0x00000073 [] []).fetch = .ok 0x00000073 ∧ decode 0x00000073#32 = .unsupported) ∧
      ((rowState 0x0012A303 [] []).fetch = .ok 0x0012A303 ∧ decode 0x0012A303#32 = .instr (.lw 6 5 1) ∧
        ((rowState 0x0012A303 [] []).reg 5 + 1).toNat % 4 ≠ 0) ∧
      (rowState 0x0062A023 [(5, 0x1000)] []).fetch = .ok 0x0062A023 ∧ decode 0x0062A023#32 = .instr (.sw 5 6 0) ∧
        ((rowState 0x0062A023 [(5, 0x1000)] []).reg 5 + 0).toNat + 4 > (rowState 0x0062A023 [(5, 0x1000)] []).memSize := by
  decide

theorem witness_FailedStepChangesOnlyStatus :
    (rowState 0x0062A123 [(5, 0x200), (6, 1)] []).status = .running ∧
      ∃ t e, step (rowState 0x0062A123 [(5, 0x200), (6, 1)] []) = .next t ∧ t.status = .error e :=
  ⟨rfl, _, _, rfl, rfl⟩

/-- A jump to itself, a branch to itself, and a jump elsewhere. -/
theorem witness_HaltExactlyOnSelfJump :
    ((rowState 0x0000006F [] []).status = .running ∧ ∃ t, step (rowState 0x0000006F [] []) = .next t ∧ t.status = .halted) ∧
      ((rowState 0x00000063 [] []).status = .running ∧ ∃ t, step (rowState 0x00000063 [] []) = .next t ∧ t.status ≠ .halted) ∧
      ((rowState 0xFF9FF0EF [] []).status = .running ∧ ∃ t, step (rowState 0xFF9FF0EF [] []) = .next t ∧ t.status ≠ .halted) :=
  ⟨⟨rfl, _, rfl, rfl⟩, ⟨rfl, _, rfl, by decide⟩, ⟨rfl, _, rfl, by decide⟩⟩

theorem rowState_legal : (rowState 0x0062A023 [(5, 0xFFC), (6, 7)] []).legal :=
  ⟨by decide, by decide, by decide, by decide, by decide, by decide⟩

theorem witness_StepKeepsLegalState :
    (rowState 0x0062A023 [(5, 0xFFC), (6, 7)] []).legal ∧ ∃ t, step (rowState 0x0062A023 [(5, 0xFFC), (6, 7)] []) = .next t :=
  ⟨rowState_legal, _, rfl⟩

theorem witness_HostOperationsKeepLegalState :
    (rowState 0x0062A023 [(5, 0xFFC), (6, 7)] []).legal ∧
      (∃ t, (rowState 0x0062A023 [(5, 0xFFC), (6, 7)] []).loadImage [0x13, 0, 0, 0] 0xFFC = some t) ∧
      ∃ t, launchState [0x13, 0, 0, 0] 0 4 = some t :=
  ⟨rowState_legal, ⟨_, rfl⟩, _, rfl⟩

theorem witness_RetiringStepHasAlignedPc :
    (rowState 0x00000013 [] []).retireEvent = some { tag := .addi, taken := none } := by decide

theorem witness_OnlyStoreChangesMemory :
    (Instr.lw 3 1 0).tag ≠ .sw ∧ ∃ t, exec (.lw 3 1 0) (twoRegs 0x100 0) = .next t := ⟨by decide, _, rfl⟩

theorem witness_OnlyControlTransfersRedirect :
    isControlTransfer (Instr.sw 1 2 0).tag = false ∧ (twoRegs 0x200 7).status = .running ∧
      ∃ t, exec (.sw 1 2 0) (twoRegs 0x200 7) = .next t ∧ ¬ t.failed :=
  ⟨by decide, rfl, _, rfl, fun ⟨_, h⟩ => nomatch h⟩

theorem witness_OnlyRdFieldIsWritten :
    decode 0x0062AFA3#32 = .instr (.sw 5 6 31) ∧ (∃ t, exec (.sw 5 6 31) (twoRegs 0 0) = .next t) ∧
      (Instr.sw 5 6 31).tag ∈ [Tag.sw, .beq, .bne, .blt, .bge] ∧
      decode 0x81EF9063#32 = .instr (.bne 31 30 (-4096)) ∧ (∃ t, exec (.bne 31 30 (-4096)) (twoRegs 0 0) = .next t) ∧
      (Instr.bne 31 30 (-4096)).tag ∈ [Tag.sw, .beq, .bne, .blt, .bge] ∧
      decode 0x002081B3#32 = .instr (.add 3 1 2) ∧ ∃ t, exec (.add 3 1 2) (twoRegs 1 2) = .next t :=
  ⟨by decide, ⟨_, rfl⟩, by decide, by decide, ⟨_, rfl⟩, by decide, by decide, _, rfl⟩

theorem witness_RegisterZeroReadsZero : (31 : Reg) ≠ 0 ∧ (30 : Reg) ≠ 31 := by decide

/-- The two words next to the stored one, which is the last but one of memory. -/
theorem witness_StoreThenLoadReturnsTheWord :
    (∃ t, (twoRegs 0 0).writeWord 0xFF8 7 = .ok t) ∧ (0xFFC : Word) ≠ 0xFF8 ∧ (twoRegs 0 0).readWord 0xFFC = .ok 0 ∧
      (0xFF4 : Word) ≠ 0xFF8 ∧ (twoRegs 0 0).readWord 0xFF4 = .ok 0 := ⟨⟨_, rfl⟩, by decide⟩

theorem witness_StoreIsSeenByTheNextFetch :
    ((twoRegs 0xFF8 7).reg 1 + 4).toNat % 4 = 0 ∧ ((twoRegs 0xFF8 7).reg 1 + 4).toNat + 4 ≤ (twoRegs 0xFF8 7).memSize := by
  decide

theorem witness_EmptyMemoryRaisesDecodeError :
    (State.reset.setPc 0xFFFFC).status = .running ∧ (State.reset.setPc 0xFFFFC).pc.toNat % 4 = 0 ∧
      (State.reset.setPc 0xFFFFC).pc.toNat + 4 ≤ (State.reset.setPc 0xFFFFC).memSize ∧
      ∀ k, k < 4 → (State.reset.setPc 0xFFFFC).mem.byteAt ((State.reset.setPc 0xFFFFC).pc.toNat + k) = 0 := by decide

/-- Two states of one session that differ in registers, memory and status. -/
theorem witness_ResetSessionEffect :
    SameParameters (twoRegs 1 2) (rowState 0x0000006F [] []).halt ∧ twoRegs 1 2 ≠ (rowState 0x0000006F [] []).halt :=
  ⟨⟨rfl, rfl⟩, by decide⟩

/-- The image that ends at the last byte; its first and last byte, and the byte before it. -/
theorem witness_LoadImageEffect :
    (∃ t, (twoRegs 0 0).loadImage [1, 2, 3, 4, 5] 0xFF8 = some t) ∧ (∃ t, (twoRegs 0 0).loadImage [1, 2, 3, 4] 0xFFC = some t) ∧
      (twoRegs 0 0).loadImage [1, 2, 3, 4, 5] 0xFFC = none ∧ (twoRegs 0 0).loadImage [] 2 = none ∧
      0 < [1, 2, 3, 4, 5].length ∧ 4 < [1, 2, 3, 4, 5].length ∧ 0xFF7 < 0xFF8 := by
  refine ⟨⟨_, rfl⟩, ⟨_, rfl⟩, ?_⟩
  decide

/-- The smallest memory, full; and the sizes and bases that are refused. -/
theorem witness_LaunchStateContents :
    (∃ t, launchState [1, 2, 3, 4] 0 4 = some t) ∧ (∃ t, launchState [] 4 4 = some t) ∧
      launchState [1, 2, 3, 4, 5] 0 4 = none ∧ launchState [] 2 4 = none ∧ 3 < [1, 2, 3, 4].length ∧ 0 + 4 ≤ 4 := by
  refine ⟨⟨_, rfl⟩, ⟨_, rfl⟩, ?_⟩
  decide

/-- A step that completes and one that raises. -/
theorem witness_RetireEventExactlyWhenCompleted :
    ((rowState 0x00208863 [] []).status = .running ∧
      ∃ t, step (rowState 0x00208863 [] []) = .next t ∧ ¬ t.failed) ∧
      (rowState 0x0012A303 [] []).status = .running ∧ ∃ t, step (rowState 0x0012A303 [] []) = .next t ∧ t.failed :=
  ⟨⟨rfl, _, rfl, fun ⟨_, h⟩ => nomatch h⟩, rfl, _, rfl, _, rfl⟩

theorem witness_RetireEventExactlyWhenCompleted_taken :
    isControlTransfer (Instr.auipc 1 0).tag = false ∧ isJump (Instr.jalr 1 0 0).tag = true ∧
      isControlTransfer (Instr.bge 1 2 0).tag = true := by decide

/-- A step that emits an event, and a state whose step emits none. -/
theorem witness_RunsCompose :
    (run 0 (rowState 0x0000006F [] [])).retireEvent = some { tag := .jal, taken := some true } ∧
      (run 1 (rowState 0x0000006F [] [])).retireEvent = none := by decide

/-- A range that ends at the last byte and one past it; words that end at the last one, one past it, and misaligned. -/
theorem witness_InspectionReadsMemory :
    (∃ l, (twoRegs 0 0).inspectBytes 0xFFE 2 = some l) ∧ (twoRegs 0 0).inspectBytes 0xFFE 3 = none ∧
      (∃ l, (twoRegs 0 0).disassembleForward 0xFF8 2 = some l) ∧ (twoRegs 0 0).disassembleForward 0xFF8 3 = none ∧
      (twoRegs 0 0).disassembleForward 2 1 = none := ⟨⟨_, rfl⟩, rfl, ⟨_, rfl⟩, rfl, rfl⟩

/-- Each command on a legal session, a load that fails, and a load and a step on an ended session. -/
theorem witness_HostCommandsKeepTheSession :
    (∀ c ∈ [HostCommand.reset, .load [0x13, 0, 0, 0] 0xFFC, .step, .run 2],
      ∃ t, (rowState 0x0062A023 [(5, 0xFFC), (6, 7)] []).command c = some t) ∧
      (rowState 0x0062A023 [(5, 0xFFC), (6, 7)] []).legal ∧ (twoRegs 0 0).command (.load [0] 0x1000) = none ∧
      (twoRegs 0 0).halt.status ≠ .running ∧ HostCommand.step ≠ .reset ∧ (∃ t, (twoRegs 0 0).halt.command .step = some t) ∧
      ∃ t, (twoRegs 0 0).halt.command (.load [0x13] 0) = some t := by
  refine ⟨?_, rowState_legal, rfl, by decide, by decide, ⟨_, rfl⟩, _, rfl⟩
  simp only [List.forall_mem_cons]
  exact ⟨⟨_, rfl⟩, ⟨_, rfl⟩, ⟨_, rfl⟩, ⟨_, rfl⟩, fun _ h => nomatch h⟩

theorem witness_EndedRunStays :
    (run 1 (rowState 0x0000006F [] [])).status ≠ .running ∧ (run 1 State.reset).status ≠ .running ∧
      (run 0 State.reset.halt).status ≠ .running := by decide

end Sys2Proof.Tests
end

section
/-! Word accesses against each other (20_memory.md R54). -/

namespace Sys2Proof.Machine

variable {s t : State} {a b v w : Word}

/-- Two words at multiples of 4 are the same word or share no byte. -/
theorem aligned_words_disjoint (ha : a.toNat % 4 = 0) (hb : b.toNat % 4 = 0) (hne : b ≠ a) :
    a.toNat + 4 ≤ b.toNat ∨ b.toNat + 4 ≤ a.toNat := by
  have hne' : b.toNat ≠ a.toNat := fun h => hne (BitVec.eq_of_toNat_eq h)
  omega

theorem readWord_writeWord_same (h : s.writeWord a v = .ok t) : t.readWord a = .ok v := by
  obtain ⟨ha, hm, rfl⟩ := writeWord_eq_ok.1 h
  exact readWord_eq_ok.2 ⟨ha, hm, (wordAt_setWord_self s.mem a.toNat v).symm⟩

theorem readWord_writeWord_of_disjoint (h : s.writeWord a v = .ok t) (hr : s.readWord b = .ok w)
    (hd : a.toNat + 4 ≤ b.toNat ∨ b.toNat + 4 ≤ a.toNat) : t.readWord b = .ok w := by
  obtain ⟨-, -, rfl⟩ := writeWord_eq_ok.1 h
  obtain ⟨hb, hm, rfl⟩ := readWord_eq_ok.1 hr
  exact readWord_eq_ok.2 ⟨hb, hm, (wordAt_setWord_of_disjoint s.mem a.toNat b.toNat v hd).symm⟩

/-- Settles O48: alignment keeps the words at two different addresses apart, so the write touches only its own. -/
theorem storeThenLoadReturnsTheWord : Obligations.StoreThenLoadReturnsTheWord := by
  intro s t a v h
  refine ⟨readWord_writeWord_same h, fun b w hne hr => ?_⟩
  have hd : a.toNat + 4 ≤ b.toNat ∨ b.toNat + 4 ≤ a.toNat :=
    aligned_words_disjoint (writeWord_eq_ok.1 h).1 (readWord_eq_ok.1 hr).1 hne
  exact ⟨readWord_writeWord_of_disjoint h hr hd, hd⟩

end Sys2Proof.Machine
end

section
/-! The parameter BASE and the step (40_step_sequencer.md R134): no instruction reads the base of the most recent load
and none writes it, so every operation a step is made of commutes with replacing it. What a step reads (a register,
`pc`, a word of memory, an access error) is the same by unfolding whatever the base is. -/

namespace Sys2Proof.Machine

variable {s t : State} {i : Instr}

/-! The ends of an instruction. -/

theorem setReg_withBase (s : State) (rd : Reg) (v b : Word) :
    State.setReg { s with base := b } rd v = { s.setReg rd v with base := b } := by
  unfold State.setReg; split <;> rfl

theorem writeBack_withBase (s : State) (rd : Reg) (v b : Word) :
    State.writeBack { s with base := b } rd v = { s.writeBack rd v with base := b } := by
  rw [State.writeBack, setReg_withBase]; rfl

theorem branch_withBase (s : State) (c : Bool) (target b : Word) :
    State.branch { s with base := b } c target = { s.branch c target with base := b } := by
  cases c <;> rfl

theorem jump_withBase (s : State) (rd : Reg) (target b : Word) :
    State.jump { s with base := b } rd target = { s.jump rd target with base := b } := by
  simp only [State.jump, setReg_withBase]; split <;> rfl

/-! The instructions and the step. -/

theorem exec_withBase (b : Word) (h : exec i s = .next t) : exec i { s with base := b } = .next { t with base := b } := by
  cases i
  case lw rd rs1 imm =>
    cases ha : s.accessError (s.reg rs1 + imm) with
    | some e =>
      cases (lw_of_accessError ha).symm.trans h
      exact lw_of_accessError ha
    | none =>
      cases (lw_of_accessible ha).symm.trans h
      exact (lw_of_accessible (s := { s with base := b }) ha).trans (congrArg _ (writeBack_withBase ..))
  case sw rs1 rs2 imm =>
    cases ha : s.accessError (s.reg rs1 + imm) with
    | some e =>
      cases (sw_of_accessError ha).symm.trans h
      exact sw_of_accessError ha
    | none =>
      cases (sw_of_accessible ha).symm.trans h
      exact sw_of_accessible ha
  all_goals obtain rfl := Host.Outcome.next.inj h
  case beq | bne | blt | bge => exact congrArg _ (branch_withBase ..)
  case jal | jalr => exact congrArg _ (jump_withBase ..)
  all_goals exact congrArg _ (writeBack_withBase ..)

theorem step_withBase (b : Word) (h : step s = .next t) : step { s with base := b } = .next { t with base := b } := by
  obtain ⟨hr, rfl⟩ | ⟨hr, e, he, rfl⟩ | ⟨hr, w, hf, hd, rfl⟩ | ⟨hr, w, i, hf, hd, hx⟩ := step_cases h
  · exact step_of_not_running hr
  · exact step_of_fetch_error hr (fetch_eq_error.2 he)
  · exact step_of_unsupported hr hf hd
  · exact (step_of_decode (s := { s with base := b }) hr hf hd).trans (exec_withBase b hx)

/-- Settles O38: the step answers in every state, and replacing the base commutes with it. -/
theorem stepIsTotalFunction : Obligations.StepIsTotalFunction :=
  fun s => (step_total s).imp fun _ h => ⟨h, fun b => step_withBase b h⟩

end Sys2Proof.Machine
end

section
/-! The register-register instructions (41_reg_reg_alu.md R141 to R147). The word of such an instruction is fixed by its
opcode and its two function fields; its meaning writes one result back, and the frame of that is `writeBack_frame`. -/

namespace Sys2Proof.Machine

/-- A row that fixes the opcode and both function fields decodes, if every word with the fields of its pattern is selected
(30_encoding.md R97, R99). -/
theorem rowDecodes_of_fields {pattern : Word} {f : Word → Instr}
    (h : ∀ w, opcodeField w = opcodeField pattern → funct3Field w = funct3Field pattern →
      funct7Field w = funct7Field pattern → Selects w (f w)) :
    RowDecodes 0xFE00707F#32 pattern f := by
  intro w hw
  obtain ⟨op, f3, f7⟩ := fields_of_mask73 w hw
  exact decode_eq_instr.2 (h w op f3 f7)

/-- The difference of two words, read without a sign, is the integer difference modulo 2^32. -/
theorem natCast_toNat_sub (a b : Word) : ((a - b).toNat : Int) = ((a.toNat : Int) - b.toNat) % 2 ^ 32 := by
  rw [BitVec.toNat_sub]
  have hb : b.toNat < 2 ^ 32 := b.isLt
  omega

/-- Settles O8: the result written back is the sum, which `BitVec` addition takes modulo 2^32. -/
theorem addEffect : Obligations.AddEffect := by
  refine ⟨rowDecodes_of_fields fun _ op f3 f7 => .add op f7 f3, fun rd rs1 rs2 s => ?_⟩
  exact ⟨_, rfl, writeBack_frame s rd _, fun h => by rw [writeBack_reg h, BitVec.toNat_add]⟩

/-- Settles O9: the result written back is the difference, whose unsigned reading is taken modulo 2^32. -/
theorem subEffect : Obligations.SubEffect := by
  refine ⟨rowDecodes_of_fields fun _ op f3 f7 => .sub op f7 f3, fun rd rs1 rs2 s => ?_⟩
  exact ⟨_, rfl, writeBack_frame s rd _, fun h => by rw [writeBack_reg h, natCast_toNat_sub]⟩

/-- Settles O10: the result written back is the AND of the two words, read bit by bit. -/
theorem andEffect : Obligations.AndEffect := by
  refine ⟨rowDecodes_of_fields fun _ op f3 f7 => .and op f7 f3, fun rd rs1 rs2 s => ?_⟩
  exact ⟨_, rfl, writeBack_frame s rd _, fun h k _ => by rw [writeBack_reg h, BitVec.getLsbD_and]⟩

/-- Settles O11: the result written back is the inclusive OR of the two words, read bit by bit. -/
theorem orEffect : Obligations.OrEffect := by
  refine ⟨rowDecodes_of_fields fun _ op f3 f7 => .or op f7 f3, fun rd rs1 rs2 s => ?_⟩
  exact ⟨_, rfl, writeBack_frame s rd _, fun h k _ => by rw [writeBack_reg h, BitVec.getLsbD_or]⟩

/-- Settles O12: the result written back is the exclusive OR of the two words, read bit by bit. -/
theorem xorEffect : Obligations.XorEffect := by
  refine ⟨rowDecodes_of_fields fun _ op f3 f7 => .xor op f7 f3, fun rd rs1 rs2 s => ?_⟩
  exact ⟨_, rfl, writeBack_frame s rd _, fun h k _ => by rw [writeBack_reg h, BitVec.getLsbD_xor]⟩

/-- Settles O13: the shift amount is the second register modulo 32, and the shift left by it a multiplication. -/
theorem sllEffect : Obligations.SllEffect := by
  refine ⟨rowDecodes_of_fields fun _ op f3 f7 => .sll op f7 f3, fun rd rs1 rs2 s => ?_⟩
  refine ⟨_, rfl, writeBack_frame s rd _, fun h => ?_⟩
  rw [writeBack_reg h, BitVec.toNat_shiftLeft, Nat.shiftLeft_eq, shiftAmount_eq]

/-- Settles O14: the shift amount is the second register modulo 32, and the shift right by it a division. -/
theorem srlEffect : Obligations.SrlEffect := by
  refine ⟨rowDecodes_of_fields fun _ op f3 f7 => .srl op f7 f3, fun rd rs1 rs2 s => ?_⟩
  refine ⟨_, rfl, writeBack_frame s rd _, fun h => ?_⟩
  rw [writeBack_reg h, BitVec.toNat_ushiftRight, Nat.shiftRight_eq_div_pow, shiftAmount_eq]

end Sys2Proof.Machine
end

section
/-! The register-immediate instructions (42_reg_imm_alu.md R161 to R166). The word of a bitwise or adding one is fixed by
its opcode and `funct3`, whatever its immediate; the word of a shift by its upper seven bits as well, and a shift word with
others is selected by no row. -/

namespace Sys2Proof.Machine

/-- A row that fixes the opcode and `funct3` decodes, if every word with the fields of its pattern is selected
(30_encoding.md R97, R99). -/
theorem rowDecodes_of_opcode_funct3 {pattern : Word} {f : Word → Instr}
    (h : ∀ w, opcodeField w = opcodeField pattern → funct3Field w = funct3Field pattern → Selects w (f w)) :
    RowDecodes 0x0000707F#32 pattern f := by
  intro w hw
  obtain ⟨op, f3⟩ := fields_of_mask3 w hw
  exact decode_eq_instr.2 (h w op f3)

/-- The decoder answers `unsupported` exactly when no row selects the word (30_encoding.md R98). -/
theorem decode_eq_unsupported {w : Word} : decode w = .unsupported ↔ ∀ i, ¬ Selects w i := by
  cases hd : decode w with
  | instr j => simpa using ⟨j, decode_eq_instr.1 hd⟩
  | unsupported => simp [← decode_eq_instr, hd]

/-- The upper seven bits of a selected shift word of opcode OP-IMM are 0000000 or, to the right only, 0100000. -/
theorem funct7_of_selects_shift {w : Word} {i : Instr} (h : Selects w i) (op : opcodeField w = 0b0010011#7)
    (f3 : funct3Field w = 0b001#3 ∨ funct3Field w = 0b101#3) :
    funct7Field w = 0b0000000#7 ∨ funct3Field w = 0b101#3 ∧ funct7Field w = 0b0100000#7 := by
  cases h
  case slli _ f7 _ | srli _ f7 _ => exact .inl f7
  case srai _ f7 h3 => exact .inr ⟨h3, f7⟩
  case addi _ h3 | xori _ h3 | ori _ h3 | andi _ h3 => exact absurd f3 (by rw [h3]; decide)
  case add op' _ _ | sub op' _ _ | sll op' _ _ | xor op' _ _ | srl op' _ _ | sra op' _ _ | or op' _ _ | and op' _ _
    | lw op' _ | sw op' _ | beq op' _ | bne op' _ | blt op' _ | bge op' _ | jalr op' _
    | lui op' | auipc op' | jal op' =>
    exact absurd (op.symm.trans op') (by decide)

/-- Settles O16: the result written back is the sum, which `BitVec` addition takes modulo 2^32. -/
theorem addiEffect : Obligations.AddiEffect := by
  refine ⟨rowDecodes_of_opcode_funct3 fun _ op f3 => .addi op f3, fun rd rs1 imm s => ?_⟩
  exact ⟨_, rfl, writeBack_frame s rd _, fun h => by rw [writeBack_reg h, BitVec.toNat_add]⟩

/-- Settles O17: the result written back is the AND with the immediate, read bit by bit. -/
theorem andiEffect : Obligations.AndiEffect := by
  refine ⟨rowDecodes_of_opcode_funct3 fun _ op f3 => .andi op f3, fun rd rs1 imm s => ?_⟩
  exact ⟨_, rfl, writeBack_frame s rd _, fun h k _ => by rw [writeBack_reg h, BitVec.getLsbD_and]⟩

/-- Settles O18: the result written back is the inclusive OR with the immediate, read bit by bit. -/
theorem oriEffect : Obligations.OriEffect := by
  refine ⟨rowDecodes_of_opcode_funct3 fun _ op f3 => .ori op f3, fun rd rs1 imm s => ?_⟩
  exact ⟨_, rfl, writeBack_frame s rd _, fun h k _ => by rw [writeBack_reg h, BitVec.getLsbD_or]⟩

/-- Settles O19: the result written back is the exclusive OR with the immediate, read bit by bit. -/
theorem xoriEffect : Obligations.XoriEffect := by
  refine ⟨rowDecodes_of_opcode_funct3 fun _ op f3 => .xori op f3, fun rd rs1 imm s => ?_⟩
  exact ⟨_, rfl, writeBack_frame s rd _, fun h k _ => by rw [writeBack_reg h, BitVec.getLsbD_xor]⟩

/-- Settles O20: the shift left is a multiplication, and a shift left is selected with 0000000 alone. -/
theorem slliEffect : Obligations.SlliEffect := by
  refine ⟨rowDecodes_of_fields fun _ op f3 f7 => .slli op f7 f3, fun rd rs1 shamt s => ?_, fun w op f3 f7 => ?_⟩
  · refine ⟨_, rfl, writeBack_frame s rd _, fun h => ?_⟩
    rw [writeBack_reg h, BitVec.toNat_shiftLeft, Nat.shiftLeft_eq]
  · refine decode_eq_unsupported.2 fun i hi => ?_
    obtain h7 | ⟨h3, -⟩ := funct7_of_selects_shift hi op (.inl f3)
    · exact f7 h7
    · exact absurd (f3.symm.trans h3) (by decide)

/-- Settles O21: the shift right is a division, and a shift right is selected with 0000000 or 0100000 alone. -/
theorem srliEffect : Obligations.SrliEffect := by
  refine ⟨rowDecodes_of_fields fun _ op f3 f7 => .srli op f7 f3, fun rd rs1 shamt s => ?_, fun w op f3 f7 f7' => ?_⟩
  · refine ⟨_, rfl, writeBack_frame s rd _, fun h => ?_⟩
    rw [writeBack_reg h, BitVec.toNat_ushiftRight, Nat.shiftRight_eq_div_pow]
  · refine decode_eq_unsupported.2 fun i hi => ?_
    obtain h7 | ⟨-, h7⟩ := funct7_of_selects_shift hi op (.inr f3)
    · exact f7 h7
    · exact f7' h7

end Sys2Proof.Machine
end

section
/-! The upper-immediate instructions (43_upper_immediate.md R181, R182). The word of such an instruction is fixed by its
opcode alone: the bits above `rd` are all immediate. -/

namespace Sys2Proof.Machine

/-- A row that fixes the opcode only decodes, if every word with the opcode of its pattern is selected
(30_encoding.md R97, R99). -/
theorem rowDecodes_of_opcode {pattern : Word} {f : Word → Instr}
    (h : ∀ w, opcodeField w = opcodeField pattern → Selects w (f w)) : RowDecodes 0x0000007F#32 pattern f :=
  fun w hw => decode_eq_instr.2 (h w (fields_of_mask7 w hw))

/-- Settles O23: the result written back is the immediate, which the decoder has placed above twelve zero bits. -/
theorem luiEffect : Obligations.LuiEffect := by
  refine ⟨rowDecodes_of_opcode fun _ op => .lui op, fun rd imm s => ?_⟩
  exact ⟨_, rfl, writeBack_frame s rd _, fun h => writeBack_reg h⟩

/-- Settles O24: the result written back is relative to the `pc` before it advances, the sum taken modulo 2^32. -/
theorem auipcEffect : Obligations.AuipcEffect := by
  refine ⟨rowDecodes_of_opcode fun _ op => .auipc op, fun rd imm s => ?_⟩
  exact ⟨_, rfl, writeBack_frame s rd _, fun h => by rw [writeBack_reg h, State.pcRelative, BitVec.toNat_add]⟩

end Sys2Proof.Machine
end

section
/-! The load and the store (44_load_store.md R191, R192). Alignment and bounds of the effective address decide whether the
access raises; an access that does not raise is one `writeBack` of the word read, or one `setWord`, and the advance. -/

namespace Sys2Proof.Machine

/-- A written word is read back byte by byte, from the lowest up (20_memory.md R53). -/
theorem byteAt_setWord_add (m : Memory) (a : Nat) (v : Word) {k : Nat} (hk : k < 4) :
    (m.setWord a v).byteAt (a + k) = wordByte v k := by
  rw [byteAt_setWord, if_pos ⟨by omega, by omega⟩, Nat.add_sub_cancel_left]

/-- A word write leaves every byte outside the word alone. -/
theorem byteAt_setWord_of_outside (m : Memory) {a b : Nat} (v : Word) (h : b < a ∨ a + 4 ≤ b) :
    (m.setWord a v).byteAt b = m.byteAt b := by
  rw [byteAt_setWord, if_neg (by omega)]

/-- Settles O25: each case of the access is the case of `accessError`, and the completing load writes back
`wordAt`, by definition the four bytes with the highest first. -/
theorem loadWordEffect : Obligations.LoadWordEffect := by
  refine ⟨rowDecodes_of_opcode_funct3 fun _ op f3 => .lw op f3, fun rd rs1 imm s => ?_⟩
  refine ⟨fun h => ?_, fun h hb => ?_, fun h hb => ?_⟩
  · exact lw_of_accessError (accessError_of_misaligned h)
  · exact lw_of_accessError (accessError_of_outOfBounds h hb)
  · exact ⟨_, lw_of_accessible (accessError_eq_none.2 ⟨h, hb⟩), writeBack_frame s rd _, fun hrd => writeBack_reg hrd⟩

/-- Settles O26: each case of the access is the case of `accessError`, and the completing store changes the memory by one
word write and the `pc` by the advance, so every other field is the same by unfolding. -/
theorem storeWordEffect : Obligations.StoreWordEffect := by
  refine ⟨rowDecodes_of_opcode_funct3 fun _ op f3 => .sw op f3, fun rs1 rs2 imm s => ?_⟩
  refine ⟨fun h => ?_, fun h hb => ?_, fun h hb => ?_⟩
  · exact sw_of_accessError (accessError_of_misaligned h)
  · exact sw_of_accessError (accessError_of_outOfBounds h hb)
  · refine ⟨_, sw_of_accessible (accessError_eq_none.2 ⟨h, hb⟩), fun _ => rfl, fun a ha => ?_, rfl, ⟨rfl, rfl⟩, rfl,
      fun k hk => ?_⟩
    · exact byteAt_setWord_of_outside s.mem _ ha
    · exact byteAt_setWord_add s.mem _ _ hk

end Sys2Proof.Machine
end

section
/-! The conditional branches (45_branch.md R200 to R204). All four make the one transfer of R200, which depends on nothing
but the condition's value; they differ in the comparison the condition is. -/

namespace Sys2Proof.Machine

/-! The conditions, as the comparisons they decide. -/

theorem condEq_eq_decide (a b : Word) : condEq a b = decide (a = b) := rfl

theorem condNe_eq_decide (a b : Word) : condNe a b = decide (a ≠ b) := (decide_not ..).symm

theorem condLt_eq_decide (a b : Word) : condLt a b = decide (a.toInt < b.toInt) := rfl

theorem condGe_eq_decide (a b : Word) : condGe a b = decide (b.toInt ≤ a.toInt) := rfl

/-- The transfer of R200: an instruction that branches and reports on one condition changes nothing but `pc`, goes to the
target where the condition holds, and to the next instruction where it fails. -/
theorem transfer_of_exec_branch {i : Instr} {s : State} {imm : Word} {c : Bool} {Holds Fails : Prop}
    [Decidable Holds] (hx : exec i s = .next (s.branch c (s.pc + imm))) (ht : takenBy i s = some c)
    (hc : c = decide Holds) (hn : Fails → ¬ Holds) :
    ∃ t, exec i s = .next t ∧ BranchFrame s t ∧
      (Holds → t.pc = s.pc + imm ∧ takenBy i s = some true) ∧ (Fails → t.pc = s.pc + 4 ∧ takenBy i s = some false) := by
  obtain ⟨hregs, hmem, hstatus, hparams, -⟩ := branch_frame s c (s.pc + imm)
  refine ⟨_, hx, ⟨hregs, hmem, hstatus, hparams⟩, fun h => ?_, fun h => ?_⟩
  · obtain rfl := hc.trans (decide_eq_true h)
    exact ⟨branch_pc s true _, ht⟩
  · obtain rfl := hc.trans (decide_eq_false (hn h))
    exact ⟨branch_pc s false _, ht⟩

/-- Settles O27: the condition is the equality of the two registers. -/
theorem beqEffect : Obligations.BeqEffect := by
  refine ⟨rowDecodes_of_opcode_funct3 fun _ op f3 => .beq op f3, fun rs1 rs2 imm s => ?_⟩
  exact transfer_of_exec_branch rfl rfl (condEq_eq_decide ..) id

/-- Settles O28: the condition is the inequality of the two registers. -/
theorem bneEffect : Obligations.BneEffect := by
  refine ⟨rowDecodes_of_opcode_funct3 fun _ op f3 => .bne op f3, fun rs1 rs2 imm s => ?_⟩
  exact transfer_of_exec_branch rfl rfl (condNe_eq_decide ..) not_not_intro

/-- Settles O29: the condition is the order of the two signed readings, which is total. -/
theorem bltEffect : Obligations.BltEffect := by
  refine ⟨rowDecodes_of_opcode_funct3 fun _ op f3 => .blt op f3, fun rs1 rs2 imm s => ?_⟩
  exact transfer_of_exec_branch rfl rfl (condLt_eq_decide ..) not_lt.2

/-- Settles O30: the condition is the order of the two signed readings the other way round, which is total. -/
theorem bgeEffect : Obligations.BgeEffect := by
  refine ⟨rowDecodes_of_opcode_funct3 fun _ op f3 => .bge op f3, fun rs1 rs2 imm s => ?_⟩
  exact transfer_of_exec_branch rfl rfl (condGe_eq_decide ..) not_le.2

end Sys2Proof.Machine
end

section
/-! The unsupported words (47_unsupported.md R221, R222). No instruction raises a decode error, so the step raises one
exactly where the decoder answers `unsupported`; and the words refused under a supported opcode are its rows of R222. -/

namespace Sys2Proof.Machine

variable {s : State} {w : Word}

/-! The step raises a decode error exactly on an unsupported word. -/

/-- An instruction keeps the status, halts, or raises the memory error of its access. -/
theorem exec_ne_raise_decodeError (hr : s.status = .running) (i : Instr) (v a : Word) :
    exec i s ≠ .next (s.raise (.decodeError v a)) := by
  intro h
  obtain ⟨rd, u, -, -, ht⟩ | ⟨b, e, -, -, he, ht⟩ | ⟨rs1, rs2, imm, -, -, ht⟩ | ⟨c, imm, -, -, -, ht⟩ |
    ⟨rd, target, -, -, -, ht, -⟩ := exec_cases h
  all_goals have hs := congrArg State.status ht
  · simp [State.writeBack, hr] at hs
  · obtain ⟨-, rfl⟩ | ⟨-, -, rfl⟩ := accessError_cases he <;> simp at hs
  · simp [hr] at hs
  · obtain ⟨-, -, hb, -⟩ := branch_frame s c (s.pc + imm)
    simp [hb, hr] at hs
  · rw [raise_status, jump_status, hr] at hs
    split at hs <;> cases hs

theorem step_eq_raise_decodeError (hr : s.status = .running) (hf : s.fetch = .ok w) :
    step s = .next (s.raise (.decodeError w s.pc)) ↔ decode w = .unsupported := by
  refine ⟨fun h => ?_, step_of_unsupported hr hf⟩
  cases hd : decode w with
  | unsupported => rfl
  | instr i => exact absurd ((step_of_decode hr hf hd).symm.trans h) (exec_ne_raise_decodeError hr i w s.pc)

/-! The words each supported opcode refuses: the rows of R222. -/

theorem funct3_cases : ∀ f : BitVec 3, f = 0b000#3 ∨ f = 0b001#3 ∨ f = 0b010#3 ∨ f = 0b011#3 ∨ f = 0b100#3 ∨
    f = 0b101#3 ∨ f = 0b110#3 ∨ f = 0b111#3 := by decide

theorem decodeOp_eq_unsupported :
    decodeOp w = .unsupported ↔
      funct3Field w ∈ [0b010#3, 0b011#3] ∨ funct7Field w ∉ [0b0000000#7, 0b0100000#7] ∨
        (funct7Field w = 0b0100000#7 ∧ funct3Field w ∉ [0b000#3, 0b101#3]) := by
  by_cases h0 : funct7Field w = 0b0000000#7
  · obtain h | h | h | h | h | h | h | h := funct3_cases (funct3Field w) <;> simp [decodeOp, h0, h]
  · by_cases h32 : funct7Field w = 0b0100000#7
    · obtain h | h | h | h | h | h | h | h := funct3_cases (funct3Field w) <;> simp [decodeOp, h32, h]
    · simp [decodeOp, h0, h32]

theorem decodeOpImm_eq_unsupported :
    decodeOpImm w = .unsupported ↔
      funct3Field w ∈ [0b010#3, 0b011#3] ∨ (funct3Field w = 0b001#3 ∧ funct7Field w ≠ 0b0000000#7) ∨
        (funct3Field w = 0b101#3 ∧ funct7Field w ∉ [0b0000000#7, 0b0100000#7]) := by
  obtain h | h | h | h | h | h | h | h := funct3_cases (funct3Field w) <;> simp [decodeOpImm, h, ite_eq_iff]

theorem decodeLoad_eq_unsupported : decodeLoad w = .unsupported ↔ funct3Field w ≠ 0b010#3 := by
  simp [decodeLoad]

theorem decodeStore_eq_unsupported : decodeStore w = .unsupported ↔ funct3Field w ≠ 0b010#3 := by
  simp [decodeStore]

theorem decodeBranch_eq_unsupported :
    decodeBranch w = .unsupported ↔ funct3Field w ∈ [0b010#3, 0b011#3, 0b110#3, 0b111#3] := by
  obtain h | h | h | h | h | h | h | h := funct3_cases (funct3Field w) <;> simp [decodeBranch, h]

theorem decodeJalr_eq_unsupported : decodeJalr w = .unsupported ↔ funct3Field w ≠ 0b000#3 := by
  simp [decodeJalr]

/-- Settles O5: the step raises the error exactly where the decoder refuses the word, and under each opcode only the rows
of that opcode are left of the table. -/
theorem unsupportedCombinations : Obligations.UnsupportedCombinations := by
  intro s w hr hf op f3 f7
  refine (step_eq_raise_decodeError hr hf).trans ?_
  rw [show op = opcodeField w from rfl, show f3 = funct3Field w from rfl, show f7 = funct7Field w from rfl]
  unfold decode
  split_ifs with h h h h h h h h h
  · simp [h, decodeOp_eq_unsupported]
  · simp [h, decodeOpImm_eq_unsupported]
  · simp [h, decodeLoad_eq_unsupported]
  · simp [h, decodeStore_eq_unsupported]
  · simp [h, decodeBranch_eq_unsupported]
  · simp [h, decodeJalr_eq_unsupported]
  · simp [h]
  · simp [h]
  · simp [h]
  · simp [*]

end Sys2Proof.Machine
end

section
/-! The synchronous errors (60_exceptions.md R244). A step raises at the fetch, at the decode, or at the access of a load
or a store, and `accessError` says which of the two memory errors an access raises. -/

namespace Sys2Proof.Machine

variable {s t : State} {i : Instr} {a : Word} {e : MachineError}

/-- An address that is misaligned or out of bounds makes the access raise. -/
theorem exists_accessError (h : a.toNat % 4 ≠ 0 ∨ a.toNat + 4 > s.memSize) : ∃ e, s.accessError a = some e := by
  refine Option.ne_none_iff_exists'.1 fun hn => ?_
  obtain ⟨ha, hb⟩ := accessError_eq_none.1 hn
  omega

/-- The two memory rows of the table: the error an access raises, with its cause. -/
theorem memoryError_of_accessError (h : s.accessError a = some e) :
    (e = .memoryError .misaligned a ∧ a.toNat % 4 ≠ 0) ∨ (e = .memoryError .outOfBounds a ∧ a.toNat + 4 > s.memSize) := by
  obtain ⟨hm, rfl⟩ | ⟨-, hb, rfl⟩ := accessError_cases h
  · exact .inl ⟨rfl, hm⟩
  · exact .inr ⟨rfl, hb⟩

/-- Only a load and a store make an access, at the effective address. -/
theorem accessAddr_eq_some (h : accessAddr i s = some a) :
    (∃ rd rs1 imm, i = .lw rd rs1 imm ∧ a = s.reg rs1 + imm) ∨ ∃ rs1 rs2 imm, i = .sw rs1 rs2 imm ∧ a = s.reg rs1 + imm := by
  cases i
  case lw rd rs1 imm => exact .inl ⟨rd, rs1, imm, rfl, (Option.some.inj h).symm⟩
  case sw rs1 rs2 imm => exact .inr ⟨rs1, rs2, imm, rfl, (Option.some.inj h).symm⟩
  all_goals cases h

/-- An instruction that ends in an error has raised the error of its access. -/
theorem accessError_of_exec_error (hr : s.status = .running) (h : exec i s = .next t) (he : t.status = .error e) :
    ∃ a, accessAddr i s = some a ∧ s.accessError a = some e := by
  obtain ⟨rd, v, -, -, rfl⟩ | ⟨a, e', ha, -, hacc, rfl⟩ | ⟨rs1, rs2, imm, -, -, rfl⟩ | ⟨c, imm, -, -, -, rfl⟩ |
    ⟨rd, target, -, -, -, rfl, -⟩ := exec_cases h
  · simp [State.writeBack, hr] at he
  · obtain rfl := Status.error.inj he
    exact ⟨a, ha, hacc⟩
  · simp [hr] at he
  · obtain ⟨-, -, hb, -⟩ := branch_frame s c (s.pc + imm)
    simp [hb, hr] at he
  · rw [jump_status, hr] at he
    split at he <;> cases he

/-- Where a step's error comes from: the fetch, the decode, or the access of the instruction. -/
theorem step_error_cases (hr : s.status = .running) (h : step s = .next t) (he : t.status = .error e) :
    s.accessError s.pc = some e ∨
    (∃ w, s.fetch = .ok w ∧ decode w = .unsupported ∧ e = .decodeError w s.pc) ∨
    ∃ w i a, s.fetch = .ok w ∧ decode w = .instr i ∧ accessAddr i s = some a ∧ s.accessError a = some e := by
  obtain ⟨hn, -⟩ | ⟨-, e', hacc, rfl⟩ | ⟨-, w, hf, hd, rfl⟩ | ⟨-, w, i, hf, hd, hx⟩ := step_cases h
  · exact absurd hr hn
  · obtain rfl := Status.error.inj he
    exact .inl hacc
  · exact .inr (.inl ⟨w, hf, hd, (Status.error.inj he).symm⟩)
  · obtain ⟨a, ha, hacc⟩ := accessError_of_exec_error hr hx he
    exact .inr (.inr ⟨w, i, a, hf, hd, ha, hacc⟩)

theorem failed_of_step_eq_raise (h : step s = .next t) (hs : step s = .next (s.raise e)) : t.failed := by
  obtain rfl := Host.Outcome.next.inj (h.symm.trans hs)
  exact ⟨e, raise_status s e⟩

/-- A fetch from a misaligned or out-of-bounds `pc` fails the step. -/
theorem failed_of_fetch_cause (hr : s.status = .running) (h : step s = .next t)
    (hc : s.pc.toNat % 4 ≠ 0 ∨ s.pc.toNat + 4 > s.memSize) : t.failed := by
  obtain ⟨e, he⟩ := exists_accessError hc
  exact failed_of_step_eq_raise h (step_of_fetch_error hr (fetch_eq_error.2 he))

/-- Settles O36: the errors are those of the step's three sources, read through `accessError`, and each cause makes its
source raise. -/
theorem errorsAreThoseOfTheTable : Obligations.ErrorsAreThoseOfTheTable := by
  intro s t hr h
  refine ⟨fun e he => ?_, fun hm => failed_of_fetch_cause hr h (.inl hm), fun hb => failed_of_fetch_cause hr h (.inr hb),
    fun w hf => ⟨fun hd => failed_of_step_eq_raise h (step_of_unsupported hr hf hd), fun rd rs1 imm hd hc => ?_,
      fun rs1 rs2 imm hd hc => ?_⟩⟩
  · obtain hacc | hdec | ⟨w, i, a, hf, hd, ha, hacc⟩ := step_error_cases hr h he
    · exact (memoryError_of_accessError hacc).imp_right .inl
    · exact .inr (.inr (.inl hdec))
    · exact .inr (.inr (.inr ⟨w, i, a, hf, hd, accessAddr_eq_some ha, memoryError_of_accessError hacc⟩))
  · obtain ⟨e, he⟩ := exists_accessError hc
    exact failed_of_step_eq_raise h ((step_of_decode hr hf hd).trans (lw_of_accessError he))
  · obtain ⟨e, he⟩ := exists_accessError hc
    exact failed_of_step_eq_raise h ((step_of_decode hr hf hd).trans (sw_of_accessError he))

end Sys2Proof.Machine
end

section
/-! The round trip of the encoding (30_encoding.md R103) and the table of masks (R99). An instruction is encoded from the
fields the decoder reads, so the word a row selects is made up of its fields again; and a row's mask keeps exactly the
bits the row is selected by. -/

namespace Sys2Proof

/-- Settles O1: the round trip of each instruction, read from its format (30_encoding.md R103). -/
theorem decodeOfEncode : Obligations.DecodeOfEncode
  | .add rd rs1 rs2 => Laws.RoundTrip.add rd rs1 rs2
  | .sub rd rs1 rs2 => Laws.RoundTrip.sub rd rs1 rs2
  | .sll rd rs1 rs2 => Laws.RoundTrip.sll rd rs1 rs2
  | .xor rd rs1 rs2 => Laws.RoundTrip.xor rd rs1 rs2
  | .srl rd rs1 rs2 => Laws.RoundTrip.srl rd rs1 rs2
  | .sra rd rs1 rs2 => Laws.RoundTrip.sra rd rs1 rs2
  | .or rd rs1 rs2 => Laws.RoundTrip.or rd rs1 rs2
  | .and rd rs1 rs2 => Laws.RoundTrip.and rd rs1 rs2
  | .addi rd rs1 imm => Laws.RoundTrip.addi rd rs1 imm
  | .xori rd rs1 imm => Laws.RoundTrip.xori rd rs1 imm
  | .ori rd rs1 imm => Laws.RoundTrip.ori rd rs1 imm
  | .andi rd rs1 imm => Laws.RoundTrip.andi rd rs1 imm
  | .slli rd rs1 shamt => Laws.RoundTrip.slli rd rs1 shamt
  | .srli rd rs1 shamt => Laws.RoundTrip.srli rd rs1 shamt
  | .srai rd rs1 shamt => Laws.RoundTrip.srai rd rs1 shamt
  | .lw rd rs1 imm => Laws.RoundTrip.lw rd rs1 imm
  | .sw rs1 rs2 imm => Laws.RoundTrip.sw rs1 rs2 imm
  | .beq rs1 rs2 imm => Laws.RoundTrip.beq rs1 rs2 imm
  | .bne rs1 rs2 imm => Laws.RoundTrip.bne rs1 rs2 imm
  | .blt rs1 rs2 imm => Laws.RoundTrip.blt rs1 rs2 imm
  | .bge rs1 rs2 imm => Laws.RoundTrip.bge rs1 rs2 imm
  | .lui rd imm => Laws.RoundTrip.lui rd imm
  | .auipc rd imm => Laws.RoundTrip.auipc rd imm
  | .jal rd imm => Laws.RoundTrip.jal rd imm
  | .jalr rd rs1 imm => Laws.RoundTrip.jalr rd rs1 imm

/-- The instruction a row reads from a word is encoded by that word: the row fixes every field it does not read. -/
theorem Selects.encode_eq {w : Word} {i : Instr} (h : Selects w i) : encode i = w := by
  cases h
  case add op f7 f3 | sub op f7 f3 | sll op f7 f3 | xor op f7 f3 | srl op f7 f3 | sra op f7 f3 | or op f7 f3
    | and op f7 f3 | slli op f7 f3 | srli op f7 f3 | srai op f7 f3 =>
    have hw := encodeR_fields w
    rwa [f7, f3, op] at hw
  case addi op f3 | xori op f3 | ori op f3 | andi op f3 | lw op f3 | jalr op f3 =>
    have hw := encodeI_fields w
    rwa [f3, op] at hw
  case sw op f3 =>
    have hw := encodeS_fields w
    rwa [f3, op] at hw
  case beq op f3 | bne op f3 | blt op f3 | bge op f3 =>
    have hw := encodeB_fields w
    rwa [f3, op] at hw
  case lui op | auipc op =>
    have hw := encodeU_fields w
    rwa [op] at hw
  case jal op =>
    have hw := encodeJ_fields w
    rwa [op] at hw

/-- Settles O2: the row that selects the word encodes it. -/
theorem encodeOfDecode : Obligations.EncodeOfDecode :=
  fun _ _ h => (decode_eq_instr.1 h).encode_eq

/-- Settles O3: the row that selects the word reads its immediate within the range of its format. -/
theorem decodedInstructionsAreWellFormed : Obligations.DecodedInstructionsAreWellFormed :=
  fun _ _ h => (decode_eq_instr.1 h).wf

/-- A word matches the row of a tag exactly when it decodes to an instruction with that tag. -/
theorem mask_eq_pattern_iff (w : Word) (t : Tag) :
    w &&& t.mask = t.pattern ↔ ∃ i, decode w = .instr i ∧ i.tag = t := by
  simp only [decode_eq_instr]
  constructor
  · exact selects_of_mask t
  · rintro ⟨i, hi, rfl⟩
    exact hi.mask

/-- Settles O4: matching a row is decoding with its tag, and the decoder answers one instruction at most. -/
theorem decodeAgreesWithMaskTable : Obligations.DecodeAgreesWithMaskTable := by
  refine ⟨mask_eq_pattern_iff, fun w t u ht hu => ?_, fun w h => ?_⟩
  · obtain ⟨i, hi, rfl⟩ := (mask_eq_pattern_iff w t).1 ht
    obtain ⟨j, hj, rfl⟩ := (mask_eq_pattern_iff w u).1 hu
    rw [Decoded.instr.inj (hi.symm.trans hj)]
  · cases hd : decode w with
    | unsupported => rfl
    | instr i => exact absurd ((mask_eq_pattern_iff w i.tag).2 ⟨i, hd, rfl⟩) (h i.tag)

/-- Settles O7: the fields of each word evaluate to those of its row, or of none. -/
theorem exampleWordsDecode : Obligations.ExampleWordsDecode := by
  unfold Obligations.ExampleWordsDecode
  decide

end Sys2Proof
end

section
/-! The arithmetic shifts to the right (41_reg_reg_alu.md R148, 42_reg_imm_alu.md R167): a shift of the signed reading is
its division by a power of two, rounded down, which is how `Int` divides by a positive number. -/

namespace Sys2Proof.Machine

/-- The signed reading of an arithmetic shift to the right. -/
theorem toInt_sshiftRight_eq_div (v : Word) (n : Nat) : (v.sshiftRight n).toInt = v.toInt / 2 ^ n := by
  rw [BitVec.toInt_sshiftRight, Int.shiftRight_eq_div_pow]
  norm_cast

/-- Settles O15: the shift amount is the second register modulo 32, and the shift by it a signed division. -/
theorem sraEffect : Obligations.SraEffect := by
  refine ⟨rowDecodes_of_fields fun _ op f3 f7 => .sra op f7 f3, fun rd rs1 rs2 s => ?_⟩
  refine ⟨_, rfl, writeBack_frame s rd _, fun h => ?_⟩
  rw [writeBack_reg h, toInt_sshiftRight_eq_div, shiftAmount_eq]

/-- Settles O22: the shift by the constant is a signed division. -/
theorem sraiEffect : Obligations.SraiEffect := by
  refine ⟨rowDecodes_of_fields fun _ op f3 f7 => .srai op f7 f3, fun rd rs1 shamt s => ?_⟩
  exact ⟨_, rfl, writeBack_frame s rd _, fun h => by rw [writeBack_reg h, toInt_sshiftRight_eq_div]⟩

end Sys2Proof.Machine
end

section
/-! The jumps (46_jump.md R210, R211). Both end in the one transfer `State.jump`, which links, goes to its target, and halts
where that is the jump itself; they differ in the target. -/

namespace Sys2Proof.Machine

variable {s : State} {i : Instr} {rd : Reg} {target : Word}

theorem jump_frame (s : State) (rd : Reg) (target : Word) : JumpFrame rd s (s.jump rd target) :=
  ⟨fun _ h => jump_reg_of_ne h target, reg_zero _, fun a => by rw [jump_mem], jump_parameters s rd target⟩

/-- What a jump to a target does, with the target read without a sign. -/
theorem transfer_of_exec_jump {n : Nat} (hx : exec i s = .next (s.jump rd target)) (ht : takenBy i s = some true)
    (hn : target.toNat = n) :
    ∃ t, exec i s = .next t ∧ JumpFrame rd s t ∧ (rd ≠ 0 → t.reg rd = s.pc + 4) ∧ t.pc.toNat = n ∧
      (t.pc = s.pc → t.status = .halted) ∧ (t.pc ≠ s.pc → t.status = s.status) ∧ takenBy i s = some true := by
  refine ⟨_, hx, jump_frame s rd target, fun h => jump_reg_self h target, ?_, fun h => ?_, fun h => ?_, ht⟩
  · rw [jump_pc, hn]
  · rw [jump_pc] at h
    rw [jump_status, if_pos h]
  · rw [jump_pc] at h
    rw [jump_status, if_neg h]

/-- Settles O31: the target is the sum, which `BitVec` addition takes modulo 2^32. -/
theorem jalEffect : Obligations.JalEffect := by
  refine ⟨rowDecodes_of_opcode fun _ op => .jal op, fun rd imm s => ?_⟩
  exact transfer_of_exec_jump rfl rfl (BitVec.toNat_add s.pc imm)

/-- Settles O32: the target is the sum rounded down to an even number, computed before the link is written. -/
theorem jalrEffect : Obligations.JalrEffect := by
  refine ⟨rowDecodes_of_opcode_funct3 fun _ op f3 => .jalr op f3, fun rd rs1 imm s => ?_⟩
  exact transfer_of_exec_jump rfl rfl (jalrTarget_toNat s rs1 imm)

end Sys2Proof.Machine
end

section
/-! What one instruction leaves alone, whichever it is (10_state.md R22, R27, R30; 20_memory.md R52, R66): one case per way
an instruction can end. -/

namespace Sys2Proof.Machine

variable {s t : State} {i : Instr}

@[simp] theorem writeBack_mem (s : State) (rd : Reg) (v : Word) : (s.writeBack rd v).mem = s.mem := by
  simp [State.writeBack]

/-- Settles O44: of the five ways an instruction ends, only the store's writes memory. -/
theorem onlyStoreChangesMemory : Obligations.OnlyStoreChangesMemory := by
  intro i s t hi h a
  obtain ⟨rd, v, -, -, rfl⟩ | ⟨b, e, -, -, -, rfl⟩ | ⟨rs1, rs2, imm, rfl, -, -⟩ | ⟨c, imm, -, -, -, rfl⟩ |
    ⟨rd, target, -, -, -, rfl, -⟩ := exec_cases h
  · rw [writeBack_mem]
  · rw [raise_mem]
  · exact absurd rfl hi
  · obtain ⟨-, hmem, -⟩ := branch_frame s c (s.pc + imm)
    exact hmem a
  · rw [jump_mem]

/-- Settles O45: an instruction that is no control transfer and does not raise ends by the advance. -/
theorem onlyControlTransfersRedirect : Obligations.OnlyControlTransfersRedirect := by
  intro i s t hi _ h hok
  obtain ⟨rd, v, -, -, rfl⟩ | ⟨b, e, -, -, -, rfl⟩ | ⟨rs1, rs2, imm, -, -, rfl⟩ | ⟨c, imm, -, hc, -, -⟩ |
    ⟨rd, target, -, hc, -, -, -⟩ := exec_cases h
  · obtain ⟨-, -, -, -, -, hpc⟩ := writeBack_frame s rd v
    exact hpc
  · exact absurd ⟨e, raise_status s e⟩ hok
  · rfl
  · simp [hi] at hc
  · simp [hi] at hc

/-- An instruction writes its destination register, or no register at all. -/
theorem sameRegs_or_destOf (h : exec i s = .next t) :
    SameRegs s t ∨ ∃ rd, destOf i = some rd ∧ SameRegsBut rd s t := by
  obtain ⟨rd, v, hd, -, rfl⟩ | ⟨b, e, -, -, -, rfl⟩ | ⟨rs1, rs2, imm, -, -, rfl⟩ | ⟨c, imm, -, -, -, rfl⟩ |
    ⟨rd, target, hd, -, -, rfl, -⟩ := exec_cases h
  · exact .inr ⟨rd, hd, (writeBack_frame s rd v).1⟩
  · exact .inl (raise_reg s · e)
  · exact .inl fun _ => rfl
  · exact .inl (branch_frame s c _).1
  · exact .inr ⟨rd, hd, (jump_frame s rd target).1⟩

/-- The store and the branches have no destination register (30_encoding.md R82). -/
theorem destOf_eq_none_of_tag_mem (h : i.tag ∈ [.sw, .beq, .bne, .blt, .bge]) : destOf i = none := by
  cases i
  case sw | beq | bne | blt | bge => rfl
  all_goals simp [Instr.tag] at h

/-- Settles O46: the one register an instruction writes is its destination, which the decoder reads from bits 11..7. -/
theorem onlyRdFieldIsWritten : Obligations.OnlyRdFieldIsWritten := by
  intro w i s t hdec h
  obtain hsame | ⟨rd, hrd, hbut⟩ := sameRegs_or_destOf h
  · exact ⟨fun r _ => hsame r, reg_zero t, fun _ => hsame⟩
  · obtain rfl := destOf_decode hdec hrd
    refine ⟨hbut, reg_zero t, fun htag => ?_⟩
    rw [destOf_eq_none_of_tag_mem htag] at hrd
    cases hrd

/-- Settles O49: a fetch is a word read at `pc`, and a word written is the word read back. -/
theorem storeIsSeenByTheNextFetch : Obligations.StoreIsSeenByTheNextFetch := by
  intro rs1 rs2 imm s ha hb
  refine ⟨_, sw_of_accessible (accessError_eq_none.2 ⟨ha, hb⟩), fetch_eq_ok.2 ⟨ha, hb, ?_⟩⟩
  exact (wordAt_setWord_self s.mem _ _).symm

/-- Settles O47: slot 0 is neither read nor written, and any other slot holds what is written to it. -/
theorem registerZeroReadsZero : Obligations.RegisterZeroReadsZero :=
  fun s r v => ⟨reg_zero s, setReg_zero s v, setReg_reg_self s r v, fun r' h => setReg_reg_of_ne s r' r v h⟩

end Sys2Proof.Machine
end

section
/-! The step (40_step_sequencer.md R120 to R132, 60_exceptions.md R246 to R248): what it does in a terminal status, where it
raises, what a raised error leaves, when it halts, and when it emits its event. -/

namespace Sys2Proof.Machine

variable {s t : State} {i : Instr} {w : Word} {e : MachineError} {ev : RetireEvent}

/-! A step that runs an instruction, and one that keeps an ended state. -/

/-- Settles O33: at such a `pc` the fetch answers `wordAt`, by definition the four bytes with the highest first. -/
theorem stepRunsDecodedInstruction : Obligations.StepRunsDecodedInstruction :=
  fun _ _ hr ha hb hd => step_of_decode hr (fetch_eq_ok.2 ⟨ha, hb, rfl⟩) hd

/-- Settles O34: the step tests the status before anything else. -/
theorem terminalStatusKeepsState : Obligations.TerminalStatusKeepsState :=
  fun _ h => ⟨step_of_not_running h, retireEvent_of_not_running h⟩

/-! A step that raises. -/

theorem step_raise (s : State) (e : MachineError) : step (s.raise e) = .next (s.raise e) :=
  step_of_not_running (by simp)

theorem step_and_retireEvent_of_accessError (hr : s.status = .running) (h : s.accessError s.pc = some e) :
    step s = .next (s.raise e) ∧ s.retireEvent = none :=
  ⟨step_of_fetch_error hr (fetch_eq_error.2 h), retireEvent_of_fetch_error (fetch_eq_error.2 h)⟩

/-- Settles O35: the fetch raises the access error at `pc`, and its two cases are in this order. -/
theorem fetchErrors : Obligations.FetchErrors := by
  refine fun s hr => ⟨fun h => ?_, fun h hb => ?_⟩
  · exact step_and_retireEvent_of_accessError hr (accessError_of_misaligned h)
  · exact step_and_retireEvent_of_accessError hr (accessError_of_outOfBounds h hb)

/-- Settles O6: the step raises, which changes the status only, and the status it leaves is terminal. -/
theorem unsupportedWordsFail : Obligations.UnsupportedWordsFail := by
  intro s w hr hf hd
  exact ⟨_, step_of_unsupported hr hf hd, raise_status .., (raise_reg s · _), fun _ => rfl, raise_pc .., ⟨rfl, rfl⟩,
    retireEvent_of_unsupported hf hd, step_raise ..⟩

/-- Settles O50: four zero bytes are the word 0, which is unsupported. -/
theorem emptyMemoryRaisesDecodeError : Obligations.EmptyMemoryRaisesDecodeError := by
  intro s hr ha hb hz
  have hw : s.mem.wordAt s.pc.toNat = 0#32 := by
    have h0 : s.mem.byteAt s.pc.toNat = 0 := hz 0 (by decide)
    rw [Memory.wordAt, h0, hz 1 (by decide), hz 2 (by decide), hz 3 (by decide)]
    decide
  exact step_of_unsupported hr (fetch_eq_ok.2 ⟨ha, hb, hw.symm⟩) (by decide)

/-- An instruction that ends in an error has done nothing but raise it. -/
theorem exec_eq_raise_of_error (hr : s.status = .running) (h : exec i s = .next t) (he : t.status = .error e) :
    exec i s = .next (s.raise e) := by
  obtain ⟨a, ha, hacc⟩ := accessError_of_exec_error hr h he
  obtain ⟨rd, rs1, imm, rfl, rfl⟩ | ⟨rs1, rs2, imm, rfl, rfl⟩ := accessAddr_eq_some ha
  · exact lw_of_accessError hacc
  · exact sw_of_accessError hacc

/-- A step that ends in an error has done nothing but raise it. -/
theorem eq_raise_of_step_error (hr : s.status = .running) (h : step s = .next t) (he : t.status = .error e) :
    t = s.raise e := by
  refine Host.Outcome.next.inj (h.symm.trans ?_)
  obtain hacc | ⟨w, hf, hd, rfl⟩ | ⟨w, i, a, hf, hd, -, -⟩ := step_error_cases hr h he
  · exact step_of_fetch_error hr (fetch_eq_error.2 hacc)
  · exact step_of_unsupported hr hf hd
  · have hx : step s = exec i s := step_of_decode hr hf hd
    exact hx.trans (exec_eq_raise_of_error hr (hx.symm.trans h) he)

/-! The retire event. -/

/-- An instruction emits its own event, unless it has raised. -/
theorem eventOf_eq_some :
    eventOf i s t = some ev ↔ ¬ t.failed ∧ ev = { tag := i.tag, taken := takenBy i s } := by
  unfold eventOf State.failed
  cases t.status <;> simp [eq_comm]

/-- A step emits the event of the instruction it has run, unless that has raised. -/
theorem retireEvent_eq_some (hr : s.status = .running) (h : step s = .next t) :
    s.retireEvent = some ev ↔
      ¬ t.failed ∧ ∃ w i, s.fetch = .ok w ∧ decode w = .instr i ∧ ev = { tag := i.tag, taken := takenBy i s } := by
  obtain ⟨hn, -⟩ | ⟨-, e, hacc, rfl⟩ | ⟨-, w, hf, hd, rfl⟩ | ⟨-, w, i, hf, hd, hx⟩ := step_cases h
  · exact absurd hr hn
  · simp [retireEvent_of_fetch_error (fetch_eq_error.2 hacc), State.failed]
  · simp [retireEvent_of_unsupported hf hd, State.failed]
  · simp [retireEvent_of_exec hr hf hd hx, eventOf_eq_some, hf, hd]

theorem takenBy_of_not_controlTransfer (i : Instr) (s : State) (h : isControlTransfer i.tag = false) :
    takenBy i s = none := by
  cases i
  case beq | bne | blt | bge | jal | jalr => cases h
  all_goals rfl

theorem takenBy_of_isJump (i : Instr) (s : State) (h : isJump i.tag = true) : takenBy i s = some true := by
  cases i
  case jal | jalr => rfl
  all_goals cases h

theorem takenBy_isSome_of_controlTransfer (i : Instr) (s : State) (h : isControlTransfer i.tag = true) :
    (takenBy i s).isSome = true := by
  cases i
  case beq | bne | blt | bge | jal | jalr => rfl
  all_goals cases h

/-- Settles O54: the event is that of the instruction run, and its flag is read off the instruction's family. -/
theorem retireEventExactlyWhenCompleted : Obligations.RetireEventExactlyWhenCompleted :=
  ⟨fun _ _ _ hr h => retireEvent_eq_some hr h, fun i s => ⟨takenBy_of_not_controlTransfer i s, takenBy_of_isJump i s,
    takenBy_isSome_of_controlTransfer i s⟩⟩

theorem running_of_retireEvent (h : s.retireEvent = some ev) : s.status = .running := by
  by_contra hn
  rw [retireEvent_of_not_running hn] at h
  cases h

/-- Settles O43: a step that emits an event has fetched its word from `pc`. -/
theorem retiringStepHasAlignedPc : Obligations.RetiringStepHasAlignedPc := by
  intro s ev h
  obtain ⟨t, ht⟩ := step_total s
  obtain ⟨-, w, i, hf, -, -⟩ := (retireEvent_eq_some (running_of_retireEvent h) ht).1 h
  obtain ⟨ha, hb, -⟩ := fetch_eq_ok.1 hf
  exact ⟨ha, hb⟩

/-- Settles O37: a step that ends in an error has only raised it; a failed step emits no event, and the state is terminal. -/
theorem failedStepChangesOnlyStatus : Obligations.FailedStepChangesOnlyStatus := by
  intro s t e hr h he
  obtain rfl := eq_raise_of_step_error hr h he
  refine ⟨rfl, Option.eq_none_iff_forall_ne_some.2 fun ev hev => ?_, step_raise s e⟩
  obtain ⟨hok, -⟩ := (retireEvent_eq_some hr h).1 hev
  exact hok ⟨e, he⟩

/-! The halt. -/

theorem isJump_iff (k : Tag) : isJump k = true ↔ k = .jal ∨ k = .jalr := by
  cases k <;> simp [isJump]

theorem isJump_of_not_controlTransfer {k : Tag} (h : isControlTransfer k = false) : isJump k = false := by
  cases k
  case jal | jalr => cases h
  all_goals rfl

/-- An instruction halts the run exactly when it is a jump to its own address (40_step_sequencer.md R128, R129). -/
theorem halted_of_exec_iff (hr : s.status = .running) (h : exec i s = .next t) :
    t.status = .halted ↔ isJump i.tag = true ∧ t.pc = s.pc := by
  obtain ⟨rd, v, -, hc, rfl⟩ | ⟨a, e, -, hc, -, rfl⟩ | ⟨rs1, rs2, imm, rfl, -, rfl⟩ | ⟨c, imm, -, -, hj, rfl⟩ |
    ⟨rd, target, -, -, hj, rfl, -⟩ := exec_cases h
  · simp [isJump_of_not_controlTransfer hc, State.writeBack, hr]
  · simp [isJump_of_not_controlTransfer hc]
  · simp [Instr.tag, isJump, hr]
  · obtain ⟨-, -, hb, -⟩ := branch_frame s c (s.pc + imm)
    simp [hj, hb, hr]
  · simp [hj, jump_status, jump_pc, hr]

/-- Settles O39: a raising step ends in an error, and an instruction halts as `halted_of_exec_iff` says. -/
theorem haltExactlyOnSelfJump : Obligations.HaltExactlyOnSelfJump := by
  intro s t hr h
  simp only [← isJump_iff]
  obtain ⟨hn, -⟩ | ⟨-, e, hacc, rfl⟩ | ⟨-, w, hf, hd, rfl⟩ | ⟨-, w, i, hf, hd, hx⟩ := step_cases h
  · exact absurd hr hn
  · simp [fetch_eq_error.2 hacc]
  · simp [hf, hd]
  · simp [hf, hd, halted_of_exec_iff hr hx]

end Sys2Proof.Machine
end

section
/-! The legal states (10_state.md R21, R28, R34, R41). Every operation keeps the parameters and slot 0, the memory operations
keep their canonical form inside the memory, and a target is even because the offset of a decoded transfer is. -/

namespace Sys2Proof.Machine

variable {s t : State} {i : Instr}

/-! Even targets. -/

theorem even_add {a b : Word} (ha : a.toNat % 2 = 0) (hb : b.toNat % 2 = 0) : (a + b).toNat % 2 = 0 := by
  rw [BitVec.toNat_add]; omega

/-- The two readings of a word have the same parity. -/
theorem even_of_toInt_even {v : Word} (h : v.toInt % 2 = 0) : v.toNat % 2 = 0 := by
  rw [BitVec.toInt_eq_toNat_cond] at h; split at h <;> omega

theorem even_of_immBInRange {imm : Word} (h : immBInRange imm = true) : imm.toNat % 2 = 0 := by
  obtain ⟨-, -, heven⟩ := of_decide_eq_true h
  exact even_of_toInt_even heven

theorem even_of_immJInRange {imm : Word} (h : immJInRange imm = true) : imm.toNat % 2 = 0 := by
  obtain ⟨-, -, heven⟩ := of_decide_eq_true h
  exact even_of_toInt_even heven

theorem even_branchOffset {imm : Word} (hw : i.wf = true) (h : branchOffset i = some imm) : imm.toNat % 2 = 0 := by
  cases i
  case beq | bne | blt | bge =>
    obtain rfl := Option.some.inj h
    exact even_of_immBInRange hw
  all_goals cases h

theorem even_jalrTarget (s : State) (rs1 : Reg) (imm : Word) : (s.jalrTarget rs1 imm).toNat % 2 = 0 := by
  rw [jalrTarget_toNat]; omega

theorem even_of_aligned {a : Word} (h : a.toNat % 4 = 0) : a.toNat % 2 = 0 := by omega

/-! What keeps a legal state legal. -/

/-- A state with the memory and the parameters of a legal one, 0 in slot 0 and an even `pc` is legal. -/
theorem legal_of_frame (hs : s.legal) (hp : SameParameters s t) (hm : t.mem = s.mem) (hx : t.x[0] = s.x[0])
    (hpc : t.pc.toNat % 2 = 0) : t.legal := by
  obtain ⟨hsize, hwf, hin, hzero, -, hbase⟩ := hs
  obtain ⟨hsize', hbase'⟩ := hp
  exact ⟨hsize' ▸ hsize, hm ▸ hwf, hm.symm ▸ hsize'.symm ▸ hin, hx.trans hzero, hpc, hbase' ▸ hbase⟩

/-- A legal state stays legal with bytes written inside the memory. -/
theorem legal_setBytes (hs : s.legal) {a : Nat} (bytes : List Byte) (h : a + bytes.length ≤ s.memSize) :
    State.legal { s with mem := s.mem.setBytes a bytes } := by
  obtain ⟨hsize, hwf, hin, hrest⟩ := hs
  exact ⟨hsize, wf_setBytes bytes hwf a, within_setBytes bytes hin h, hrest⟩

theorem legal_setPc (hs : s.legal) {target : Word} (h : target.toNat % 2 = 0) : (s.setPc target).legal :=
  legal_of_frame hs ⟨rfl, rfl⟩ rfl rfl h

theorem pc_even_of_legal (hs : s.legal) : s.pc.toNat % 2 = 0 := by
  obtain ⟨-, -, -, -, hpc, -⟩ := hs
  exact hpc

theorem legal_advance (hs : s.legal) : s.advance.legal :=
  legal_setPc hs (even_add (pc_even_of_legal hs) rfl)

theorem legal_raise (hs : s.legal) (e : MachineError) : (s.raise e).legal := hs

theorem legal_writeBack (hs : s.legal) (rd : Reg) (v : Word) : (s.writeBack rd v).legal := by
  obtain ⟨-, -, -, -, hparams, hpc⟩ := writeBack_frame s rd v
  exact legal_of_frame hs hparams (writeBack_mem s rd v) (writeBack_slot_zero s rd v)
    (hpc ▸ even_add (pc_even_of_legal hs) rfl)

theorem legal_branch (hs : s.legal) (c : Bool) {target : Word} (h : target.toNat % 2 = 0) : (s.branch c target).legal := by
  cases c
  · exact legal_advance hs
  · exact legal_setPc hs h

theorem legal_jump (hs : s.legal) (rd : Reg) {target : Word} (h : target.toNat % 2 = 0) : (s.jump rd target).legal :=
  legal_of_frame hs (jump_parameters s rd target) (jump_mem s rd target) (jump_slot_zero s rd target)
    ((jump_pc s rd target).symm ▸ h)

/-- A well-formed instruction keeps a legal state legal. -/
theorem legal_exec (hw : i.wf = true) (hs : s.legal) (h : exec i s = .next t) : t.legal := by
  have hpc : s.pc.toNat % 2 = 0 := pc_even_of_legal hs
  obtain ⟨rd, v, -, -, rfl⟩ | ⟨a, e, -, -, -, rfl⟩ | ⟨rs1, rs2, imm, -, hacc, rfl⟩ | ⟨c, imm, ho, -, -, rfl⟩ |
    ⟨rd, target, -, -, -, rfl, htarget⟩ := exec_cases h
  · exact legal_writeBack hs rd v
  · exact legal_raise hs e
  · obtain ⟨-, hb⟩ := accessError_eq_none.1 hacc
    exact legal_advance (legal_setBytes hs (bytesOfWord (s.reg rs2)) hb)
  · exact legal_branch hs c (even_add hpc (even_branchOffset hw ho))
  · obtain ⟨imm, rfl, rfl⟩ | ⟨rs1, imm, -, rfl⟩ := htarget
    · exact legal_jump hs rd (even_add hpc (even_of_immJInRange hw))
    · exact legal_jump hs rd (even_jalrTarget s rs1 imm)

/-- Settles O40: a step raises, keeps the state, or runs an instruction, which is well-formed since it is decoded. -/
theorem stepKeepsLegalState : Obligations.StepKeepsLegalState := by
  intro s t hs h
  obtain ⟨-, rfl⟩ | ⟨-, e, -, rfl⟩ | ⟨-, w, -, -, rfl⟩ | ⟨-, w, i, -, hd, hx⟩ := step_cases h
  · exact hs
  · exact legal_raise hs e
  · exact legal_raise hs _
  · exact legal_exec (decode_eq_instr.1 hd).wf hs hx

/-! The host's operations. -/

theorem legal_resetSession (hs : s.legal) : s.resetSession.legal := by
  obtain ⟨hsize, -, -, -, -, hbase⟩ := hs
  exact ⟨hsize, rfl, rfl, rfl, even_of_aligned hbase, hbase⟩

theorem legal_loadImage {bytes : List Byte} {base : Word} (hs : s.legal) (h : s.loadImage bytes base = some t) :
    t.legal := by
  obtain ⟨ha, hb, rfl⟩ := loadImage_eq_some.1 h
  obtain ⟨hsize, hwf, hin, hzero, -, -⟩ := legal_setBytes hs bytes hb
  exact ⟨hsize, hwf, hin, hzero, even_of_aligned ha, ha⟩

/-- The session a launch loads its image into. -/
def freshSession (memSize : Nat) : State := { State.reset with memSize := memSize }

theorem launchState_eq_some {image : List Byte} {base : Word} {memSize : Nat} :
    launchState image base memSize = some t ↔
      Config.legalMemSize memSize = true ∧ (freshSession memSize).loadImage image base = some t := by
  unfold launchState
  split_ifs with h <;> simp [h, freshSession]

theorem legal_freshSession {memSize : Nat} (h : Config.legalMemSize memSize = true) : (freshSession memSize).legal :=
  ⟨h, rfl, rfl, rfl, rfl, rfl⟩

/-- Settles O42: reset and launch start from an empty memory, and a load writes inside the memory at an aligned base. -/
theorem hostOperationsKeepLegalState : Obligations.HostOperationsKeepLegalState := by
  refine ⟨fun s => legal_resetSession, fun s t bytes base => legal_loadImage, fun image base memSize t h => ?_⟩
  obtain ⟨hsize, hload⟩ := launchState_eq_some.1 h
  exact legal_loadImage (legal_freshSession hsize) hload

end Sys2Proof.Machine
end

section
/-! Reset, load and launch (70_reset_and_hazards.md R270 to R272, 20_memory.md R60): what each leaves in the session. -/

namespace Sys2Proof.Machine

variable {s t : State}

/-- In a register file of zeros every register reads 0. -/
theorem reg_of_replicate (h : s.x = Vector.replicate 32 0) (r : Reg) : s.reg r = 0 := by
  simp [State.reg, h]

/-- Settles O41: every field of the reset state is given, and its memory lists no byte. -/
theorem resetStateIsLegal : Obligations.ResetStateIsLegal :=
  ⟨legal_freshSession (by decide), rfl, rfl, reg_of_replicate rfl, fun _ => rfl⟩

/-- Settles O51: the fields of the reset state, with the two parameters kept. -/
theorem resetSessionEffect : Obligations.ResetSessionEffect := by
  refine ⟨fun s => ⟨reg_of_replicate rfl, fun _ => rfl, rfl, rfl, rfl, rfl⟩, fun s u ⟨hsize, hbase⟩ => ?_⟩
  rw [State.resetSession, State.resetSession, hsize, hbase]

theorem loadImage_eq_none {bytes : List Byte} {base : Word} :
    s.loadImage bytes base = none ↔ base.toNat % 4 ≠ 0 ∨ base.toNat + bytes.length > s.memSize := by
  simp only [State.loadImage, ite_eq_left_iff, reduceCtorEq, imp_false, not_not]

/-- A run of byte writes, read back. -/
theorem byteAt_setBytes_add (m : Memory) (a : Nat) (bytes : List Byte) (k : Nat) (h : k < bytes.length) :
    (m.setBytes a bytes).byteAt (a + k) = bytes[k] := by
  rw [byteAt_setBytes, dif_pos ⟨by omega, by omega⟩]
  simp only [Nat.add_sub_cancel_left]

/-- A run of byte writes leaves every byte outside it alone. -/
theorem byteAt_setBytes_of_outside (m : Memory) {a b : Nat} (bytes : List Byte) (h : b < a ∨ a + bytes.length ≤ b) :
    (m.setBytes a bytes).byteAt b = m.byteAt b := by
  rw [byteAt_setBytes, dif_neg (by omega)]

/-- Settles O52: a load that succeeds is one run of byte writes, with `pc` and base set. -/
theorem loadImageEffect : Obligations.LoadImageEffect := by
  refine fun s bytes base => ⟨loadImage_eq_none, fun t h => ?_⟩
  obtain ⟨-, -, rfl⟩ := loadImage_eq_some.1 h
  exact ⟨byteAt_setBytes_add s.mem _ bytes, fun a => byteAt_setBytes_of_outside s.mem bytes, rfl, rfl, fun _ => rfl, rfl,
    rfl⟩

/-- Settles O53: a launch is the load of the image into a fresh session, which reads 0 everywhere. -/
theorem launchStateContents : Obligations.LaunchStateContents := by
  refine fun image base memSize => ⟨?_, fun t h => ?_⟩
  · simp only [launchState_eq_some, loadImage_eq_some, Config.legalMemSize, decide_eq_true_eq, and_assoc]
    exact ⟨fun ⟨_, hs, hlo, hhi, ha, hb, _⟩ => ⟨hs, hlo, hhi, ha, hb⟩, fun ⟨hs, hlo, hhi, ha, hb⟩ =>
      ⟨_, hs, hlo, hhi, ha, hb, rfl⟩⟩
  · obtain ⟨-, hload⟩ := launchState_eq_some.1 h
    obtain ⟨hin, hout, hbase, hpc, hregs, hstatus, hsize⟩ := (loadImageEffect (freshSession memSize) image base).2 t hload
    exact ⟨fun r => (hregs r).trans (reg_of_replicate rfl r), hin, hout, hpc, hbase, hsize, hstatus⟩

end Sys2Proof.Machine
end

section
/-! Runs and the host's commands (40_step_sequencer.md R132 to R136). A run of `n + m` steps is a run of `n` steps and one
of `m`, in state and in events; what one step keeps, a run keeps. -/

namespace Sys2Proof.Machine

variable {s t : State}

/-- The events of a run are those of its first part, followed by those of the rest. -/
theorem runLog_add (n m : Nat) (s : State) :
    runLog (n + m) s = ((runLog m (runLog n s).1).1, (runLog n s).2 ++ (runLog m (runLog n s).1).2) := by
  induction n generalizing s with
  | zero => simp [runLog]
  | succ n ih =>
    by_cases hr : s.status = .running
    · obtain ⟨t, ht⟩ := step_total s
      simp [Nat.add_right_comm n 1 m, runLog_succ hr ht, ih t]
    · simp [runLog_of_not_running hr]

/-- The run of one step is the step and its event. -/
theorem runLog_one (h : step s = .next t) : runLog 1 s = (t, s.retireEvent.toList) := by
  by_cases hr : s.status = .running
  · rw [runLog_succ hr h, runLog, List.append_nil]
  · rw [runLog_of_not_running hr, retireEvent_of_not_running hr]
    obtain rfl := Host.Outcome.next.inj ((step_of_not_running hr).symm.trans h)
    rfl

theorem run_add (n m : Nat) (s : State) : run (n + m) s = run m (run n s) := by
  rw [run, runLog_add]; rfl

theorem retireCount_add (n m : Nat) (s : State) :
    retireCount (n + m) s = retireCount n s + retireCount m (run n s) := by
  rw [retireCount, runLog_add, List.length_append]; rfl

theorem step_eq_run_one (s : State) : step s = .next (run 1 s) := by
  obtain ⟨t, ht⟩ := step_total s
  rw [ht, run, runLog_one ht]

theorem retireCount_one (s : State) : retireCount 1 s = s.retireEvent.toList.length := by
  rw [retireCount, runLog_one (step_eq_run_one s)]

/-- Settles O55: runs compose, and the run of one step is the step with its event, if any. -/
theorem runsCompose : Obligations.RunsCompose := by
  intro n m s
  refine ⟨rfl, rfl, ?_, fun ev hev => ?_, fun hev => ?_, run_add n m s, retireCount_add n m s⟩
  · rw [run_add, step_eq_run_one]
  · rw [retireCount_add, retireCount_one, hev]; rfl
  · rw [retireCount_add, retireCount_one, hev]; rfl

theorem run_of_not_running (h : s.status ≠ .running) (n : Nat) : run n s = s := by
  rw [run, runLog_of_not_running h]

theorem retireCount_of_not_running (h : s.status ≠ .running) (n : Nat) : retireCount n s = 0 := by
  rw [retireCount, runLog_of_not_running h]; rfl

/-- Settles O56: the further budget is a run from the ended state, which keeps it and counts nothing. -/
theorem endedRunStays : Obligations.EndedRunStays := by
  intro n k s h
  rw [run_add, retireCount_add, run_of_not_running h, retireCount_of_not_running h]
  exact ⟨rfl, rfl⟩

theorem legal_run (hs : s.legal) (n : Nat) : (run n s).legal := by
  induction n with
  | zero => exact hs
  | succ n ih => exact stepKeepsLegalState _ _ ih (by rw [run_add, step_eq_run_one])

/-- The host's single step is the run of one step. -/
theorem command_step (s : State) : s.command .step = some (run 1 s) := by
  simp only [State.command, step_eq_run_one]

/-- A command that is a run keeps a legal session and an ended one, and does not fail. -/
theorem run_keeps_session {c : HostCommand} {n : Nat} (h : s.command c = some (run n s)) :
    (∀ t, s.legal → s.command c = some t → t.legal) ∧
    (s.command c = none → ∃ bytes base, c = .load bytes base) ∧
    (s.status ≠ .running → c ≠ .reset → ∀ t, s.command c = some t → t.status = s.status ∧ SameRegs s t ∧
      ((∃ bytes base, c = .load bytes base) ∨ t = s)) := by
  rw [h]
  refine ⟨fun t hs ht => Option.some.inj ht ▸ legal_run hs n, (nomatch ·), fun hn _ t ht => ?_⟩
  obtain rfl : s = t := (run_of_not_running hn n).symm.trans (Option.some.inj ht)
  exact ⟨rfl, fun _ => rfl, .inr rfl⟩

/-- Settles O58: step and run are runs, which keep a legal session and an ended one; a load keeps registers and status. -/
theorem hostCommandsKeepTheSession : Obligations.HostCommandsKeepTheSession := by
  intro s c
  cases c with
  | reset =>
    refine ⟨fun t hs h => ?_, (nomatch ·), fun _ hc => absurd rfl hc⟩
    exact Option.some.inj h ▸ legal_resetSession hs
  | load bytes base =>
    refine ⟨fun t hs h => legal_loadImage hs h, fun _ => ⟨bytes, base, rfl⟩, fun _ _ t h => ?_⟩
    obtain ⟨-, -, -, -, hregs, hstatus, -⟩ := (loadImageEffect s bytes base).2 t h
    exact ⟨hstatus, hregs, .inl ⟨bytes, base, rfl⟩⟩
  | step => exact run_keeps_session (command_step s)
  | run n => exact run_keeps_session rfl

end Sys2Proof.Machine
end

section
/-! Read-only inspection and disassembly (40_step_sequencer.md R136, 30_encoding.md R101). -/

namespace Sys2Proof.Machine

variable {s : State}

theorem inspectBytes_eq_none {a n : Nat} : s.inspectBytes a n = none ↔ a + n > s.memSize := by
  simp only [State.inspectBytes, ite_eq_left_iff, reduceCtorEq, imp_false, not_not]

theorem inspectBytes_eq_some {a n : Nat} {l : List Byte} :
    s.inspectBytes a n = some l ↔ a + n ≤ s.memSize ∧ s.mem.bytesFrom a n = l := by
  simp [State.inspectBytes]

theorem disassembleForward_eq_none {addr : Word} {n : Nat} :
    s.disassembleForward addr n = none ↔ addr.toNat % 4 ≠ 0 ∨ addr.toNat + 4 * n > s.memSize := by
  simp only [State.disassembleForward, ite_eq_left_iff, reduceCtorEq, imp_false, not_not]

theorem disassembleForward_eq_some {addr : Word} {n : Nat} {l : List DisassembledWord} :
    s.disassembleForward addr n = some l ↔
      (addr.toNat % 4 = 0 ∧ addr.toNat + 4 * n ≤ s.memSize) ∧ s.mem.disassembly addr.toNat n = l := by
  simp [State.disassembleForward]

/-- Settles O57: both listings are read off entry by entry, and a word is by definition its four bytes, highest first. -/
theorem inspectionReadsMemory : Obligations.InspectionReadsMemory := by
  refine ⟨fun s a n => ⟨inspectBytes_eq_none, fun l h => ?_⟩,
    fun s addr n => ⟨disassembleForward_eq_none, fun l h => ?_⟩⟩
  · obtain ⟨-, rfl⟩ := inspectBytes_eq_some.1 h
    exact ⟨bytesFrom_length s.mem a n, bytesFrom_getElem s.mem a n⟩
  · obtain ⟨-, rfl⟩ := disassembleForward_eq_some.1 h
    refine ⟨disassembly_length s.mem _ n, fun k hk => ?_⟩
    rw [disassembly_getElem s.mem addr.toNat n k hk]
    exact ⟨rfl, rfl, rfl⟩

end Sys2Proof.Machine
end
